-- ==== Sys2Proof/Word.lean ====
section
/-!
DEFINITION. The two bit-vector types of the machine (spec/00_scope.md R6): an opcode, an operand field and a memory
cell are 8 bits; a register value and an instruction word are 32 bits.
-/

namespace Sys2Proof

/-- One byte: an opcode, an operand field, a memory cell, a byte of a console stream (R6, R22). -/
abbrev Byte := BitVec 8

/-- An unsigned 32-bit quantity: a register value or an instruction word (R6, R11, R50). -/
abbrev Word := BitVec 32

end Sys2Proof
end

