-- ==== Sys2Proof/Machine/Flags.lean ====
section
/-!
DEFINITION. The core has no flags (spec/10_state.md R17): a comparison's result is a register value. This file holds that
one computation.
-/

namespace Sys2Proof.Machine

open Sys2Proof

/-- A comparison's result as a 32-bit value: exactly 1 (true) or 0 (false) (R95). -/
def boolWord (c : Bool) : Word := if c then 1 else 0

end Sys2Proof.Machine
end

