-- ==== Sys2Proof/Config.lean ====
section
/-!
DEFINITION. The parameters of the core (spec/00_scope.md R5): fixed for the whole of one run, written by no instruction.
-/

namespace Sys2Proof

/-- NUM_FUNCS: the number of slots of the opcode dispatch table, fixed (R5, R21). -/
def numFuncs : Nat := 256

/-- OPC: the opcode byte of each of the 14 mnemonics (R5, R55). -/
structure Opc where
  halt : Byte
  load : Byte
  store : Byte
  move : Byte
  puti : Byte
  add : Byte
  sub : Byte
  gt : Byte
  ge : Byte
  eq : Byte
  ite : Byte
  jump : Byte
  puts : Byte
  gets : Byte
  deriving DecidableEq, Repr

/-- The 14 bytes of OPC in the order of R55's table. -/
def Opc.bytes (o : Opc) : List Byte :=
  [o.halt, o.load, o.store, o.move, o.puti, o.add, o.sub, o.gt, o.ge, o.eq, o.ite, o.jump, o.puts, o.gets]

/-- The default OPC of R55. PRESUMED (log 5): the spec itself marks these numbers as general knowledge. -/
def Opc.default : Opc where
  halt := 0x00
  load := 0x10
  store := 0x20
  move := 0x30
  puti := 0x40
  add := 0x50
  sub := 0x60
  gt := 0x70
  ge := 0x80
  eq := 0x90
  ite := 0xA0
  jump := 0xB0
  puts := 0xC0
  gets := 0xD0

/-- The default WS of R110. PRESUMED (log 6): the spec itself marks this set as general knowledge. -/
def defaultWs : List Byte := [0x09, 0x0A, 0x0B, 0x0C, 0x0D, 0x20]

/-- The parameters a running core consults. NUM_REGS is not among them: it is the length of the register file. -/
structure Config where
  /-- MEM_SIZE: length of the memory segment in bytes (R5, R19). -/
  memSize : Nat
  /-- OPC: the opcode assignment, which is the content of the 256-slot dispatch table (R21, R55, R152). -/
  opc : Opc
  /-- WS: the bytes `gets` treats as whitespace (R110); whether 0x00 may be one of them: log 14. -/
  ws : List Byte
  /-- CODE: the code buffer, read only by instruction fetch (R20). -/
  code : List Byte
  deriving DecidableEq, Repr

/-- CODE_LEN, in bytes (R5, R20). -/
def Config.codeLen (c : Config) : Nat := c.code.length

/-- CODE_WORDS: CODE_LEN / 4, the number of instruction words (R5). -/
def Config.codeWords (c : Config) : Nat := c.codeLen / 4

/-- Everything a reset takes (R5, R150). -/
structure Params extends Config where
  /-- NUM_REGS (R5, R10). -/
  numRegs : Nat
  /-- MEM_INIT: the contents of the memory segment at reset, any MEM_SIZE bytes (R28). -/
  memInit : List Byte
  /-- The console input the host supplies for the run (R29, R109). -/
  input : List Byte
  deriving DecidableEq, Repr

/-- The defaults of R5. CODE and IN have none ("supplied by the host"): DESIGN CHOICE empty (log 2). MEM_INIT has none
("OPEN"): DESIGN CHOICE all zero (log 3). -/
def Params.default : Params where
  memSize := 8192
  opc := .default
  ws := defaultWs
  code := []
  numRegs := 16
  memInit := List.replicate 8192 0
  input := []

end Sys2Proof
end

