-- ==== Sys2Proof/Syntax.lean ====
section
/-!
DEFINITION. The instruction set: the 14 instructions of spec/opcode_table.json with the operand bytes each decodes, the
seven formats of spec/30_encoding.md R53, and which operand bytes name registers or jump targets.
-/

namespace Sys2Proof

/-- The 14 mnemonics (R1, R55). -/
inductive Mnemonic where
  | halt | load | store | move | puti | add | sub | gt | ge | eq | ite | jump | puts | gets
  deriving DecidableEq, Repr

/-- The mnemonics in the order of R55's table. -/
def Mnemonic.all : List Mnemonic :=
  [.halt, .load, .store, .move, .puti, .add, .sub, .gt, .ge, .eq, .ite, .jump, .puts, .gets]

/-- One operand byte of the instruction word (R51). -/
inductive OperandField where
  | b1 | b2 | b3
  deriving DecidableEq, Repr

/-- The seven formats of R53. -/
inductive Format where
  | Z | R | I | RR | RI | RRR | RII
  deriving DecidableEq, Repr

/-- How a handler takes one operand byte (R53, R54). -/
inductive OperandUse where
  /-- The byte is a register index, checked against NUM_REGS (R58). -/
  | register
  /-- The byte is an immediate: a value or a word index (R54). -/
  | immediate
  /-- The byte is never extracted and never checked (R56). -/
  | unused
  deriving DecidableEq, Repr

/-- The format of each instruction, the last column of R53's table read the other way. -/
def Mnemonic.format : Mnemonic → Format
  | .halt => .Z
  | .load => .RR
  | .store => .RR
  | .move => .RR
  | .puti => .RI
  | .add => .RRR
  | .sub => .RRR
  | .gt => .RRR
  | .ge => .RRR
  | .eq => .RRR
  | .ite => .RII
  | .jump => .I
  | .puts => .R
  | .gets => .R

/-- R53's table: how a format uses each operand byte. -/
def Format.operandUse : Format → OperandField → OperandUse
  | .Z, _ => .unused
  | .R, .b1 => .register
  | .R, _ => .unused
  | .I, .b1 => .immediate
  | .I, _ => .unused
  | .RR, .b1 => .register
  | .RR, .b2 => .register
  | .RR, .b3 => .unused
  | .RI, .b1 => .register
  | .RI, .b2 => .immediate
  | .RI, .b3 => .unused
  | .RRR, _ => .register
  | .RII, .b1 => .register
  | .RII, _ => .immediate

/-- An instruction with the operand bytes it uses, in B1, B2, B3 order (R53, R55). Register operands and word indices
are the raw bytes of the word: whether they are in range is checked when the instruction runs (R58, R102). -/
inductive Instr where
  | halt
  | load (dst srcAddr : Byte)
  | store (addr src : Byte)
  | move (dst src : Byte)
  | puti (dst imm : Byte)
  | add (dst a b : Byte)
  | sub (dst a b : Byte)
  | gt (dst a b : Byte)
  | ge (dst a b : Byte)
  | eq (dst a b : Byte)
  | ite (cond thenAddr elseAddr : Byte)
  | jump (target : Byte)
  | puts (addr : Byte)
  | gets (addr : Byte)
  deriving DecidableEq, Repr

/-- The mnemonic of an instruction. -/
def Instr.mnemonic : Instr → Mnemonic
  | .halt => .halt
  | .load _ _ => .load
  | .store _ _ => .store
  | .move _ _ => .move
  | .puti _ _ => .puti
  | .add _ _ _ => .add
  | .sub _ _ _ => .sub
  | .gt _ _ _ => .gt
  | .ge _ _ _ => .ge
  | .eq _ _ _ => .eq
  | .ite _ _ _ => .ite
  | .jump _ => .jump
  | .puts _ => .puts
  | .gets _ => .gets

/-- The operand bytes an instruction carries; an unused byte is 0, as R59 has an assembler emit it. -/
def Instr.operandByte : Instr → OperandField → Byte
  | .halt, _ => 0
  | .load d _, .b1 => d
  | .load _ a, .b2 => a
  | .load _ _, .b3 => 0
  | .store a _, .b1 => a
  | .store _ r, .b2 => r
  | .store _ _, .b3 => 0
  | .move d _, .b1 => d
  | .move _ r, .b2 => r
  | .move _ _, .b3 => 0
  | .puti d _, .b1 => d
  | .puti _ v, .b2 => v
  | .puti _ _, .b3 => 0
  | .add d _ _, .b1 => d
  | .add _ a _, .b2 => a
  | .add _ _ b, .b3 => b
  | .sub d _ _, .b1 => d
  | .sub _ a _, .b2 => a
  | .sub _ _ b, .b3 => b
  | .gt d _ _, .b1 => d
  | .gt _ a _, .b2 => a
  | .gt _ _ b, .b3 => b
  | .ge d _ _, .b1 => d
  | .ge _ a _, .b2 => a
  | .ge _ _ b, .b3 => b
  | .eq d _ _, .b1 => d
  | .eq _ a _, .b2 => a
  | .eq _ _ b, .b3 => b
  | .ite c _ _, .b1 => c
  | .ite _ t _, .b2 => t
  | .ite _ _ e, .b3 => e
  | .jump t, .b1 => t
  | .jump _, _ => 0
  | .puts a, .b1 => a
  | .puts _, _ => 0
  | .gets a, .b1 => a
  | .gets _, _ => 0

/-- The operand fields that an instruction uses as register indices, in the order B1, B2, B3 in which R58 checks
them. -/
def Instr.registerFields (i : Instr) : List OperandField :=
  [OperandField.b1, .b2, .b3].filter (fun f => i.mnemonic.format.operandUse f = .register)

/-- The word indices an instruction may send `pc` to (R100, R101). -/
def Instr.targets : Instr → List Nat
  | .ite _ t e => [t.toNat, e.toNat]
  | .jump t => [t.toNat]
  | _ => []

/-- The register an instruction writes, if it writes one (10_state.md section 1). -/
def Instr.dest : Instr → Option Byte
  | .load d _ => some d
  | .move d _ => some d
  | .puti d _ => some d
  | .add d _ _ => some d
  | .sub d _ _ => some d
  | .gt d _ _ => some d
  | .ge d _ _ => some d
  | .eq d _ _ => some d
  | .halt | .store _ _ | .ite _ _ _ | .jump _ | .puts _ | .gets _ => none

end Sys2Proof
end

