-- ==== Sys2Proof/Decode.lean ====
section
/-!
DEFINITION. The instruction word (spec/30_encoding.md): its four byte fields, its byte order in the code buffer, the
dispatch table's look-up, the decoder, and the encoder written from the same table.
-/

namespace Sys2Proof

/-- Field B0, bits 7:0: the opcode (R51). -/
def fieldB0 (w : Word) : Byte := w.extractLsb' 0 8

/-- Field B1, bits 15:8 (R51). -/
def fieldB1 (w : Word) : Byte := w.extractLsb' 8 8

/-- Field B2, bits 23:16 (R51). -/
def fieldB2 (w : Word) : Byte := w.extractLsb' 16 8

/-- Field B3, bits 31:24 (R51). -/
def fieldB3 (w : Word) : Byte := w.extractLsb' 24 8

/-- An operand field of a word (R51). -/
def operandField (w : Word) : OperandField → Byte
  | .b1 => fieldB1 w
  | .b2 => fieldB2 w
  | .b3 => fieldB3 w

/-- Four bytes in ascending offset order as one little-endian word: the byte at the lowest offset is bits 7:0
(R52 for fetch, R32 and R36 for data). -/
def wordOfBytes (c0 c1 c2 c3 : Byte) : Word := c3 ++ c2 ++ c1 ++ c0

/-- The four bytes of a word in ascending offset order (R52). -/
def bytesOfWord (w : Word) : List Byte := [fieldB0 w, fieldB1 w, fieldB2 w, fieldB3 w]

/-- The opcode byte OPC gives a mnemonic (R55). -/
def Opc.byteOf (o : Opc) : Mnemonic → Byte
  | .halt => o.halt
  | .load => o.load
  | .store => o.store
  | .move => o.move
  | .puti => o.puti
  | .add => o.add
  | .sub => o.sub
  | .gt => o.gt
  | .ge => o.ge
  | .eq => o.eq
  | .ite => o.ite
  | .jump => o.jump
  | .puts => o.puts
  | .gets => o.gets

/-- One slot of the 256-slot dispatch table: the mnemonic whose handler it holds, or `none` where it is unset
(R21, R57, R76, R152). -/
def Opc.lookup (o : Opc) (op : Byte) : Option Mnemonic := Mnemonic.all.find? (fun m => o.byteOf m == op)

/-- The operand bytes a handler takes: those its format uses, and no other (R53, R55, R56). -/
def Mnemonic.instr (m : Mnemonic) (b1 b2 b3 : Byte) : Instr :=
  match m with
  | .halt => .halt
  | .load => .load b1 b2
  | .store => .store b1 b2
  | .move => .move b1 b2
  | .puti => .puti b1 b2
  | .add => .add b1 b2 b3
  | .sub => .sub b1 b2 b3
  | .gt => .gt b1 b2 b3
  | .ge => .ge b1 b2 b3
  | .eq => .eq b1 b2 b3
  | .ite => .ite b1 b2 b3
  | .jump => .jump b1
  | .puts => .puts b1
  | .gets => .gets b1

/-- Why a word is no instruction. -/
inductive DecodeError where
  /-- The opcode byte's slot of the dispatch table is unset (R57). -/
  | invalidOpcode (op : Byte)
  deriving DecidableEq, Repr

/-- The decoder, total on words: decoding is on B0 alone (R55, R57, R76). -/
def decode (o : Opc) (w : Word) : Except DecodeError Instr :=
  match o.lookup (fieldB0 w) with
  | some m => .ok (m.instr (fieldB1 w) (fieldB2 w) (fieldB3 w))
  | none => .error (.invalidOpcode (fieldB0 w))

/-- The decoder on the four code bytes of a word, in ascending offset order (R52). -/
def decodeBytes (o : Opc) (c0 c1 c2 c3 : Byte) : Except DecodeError Instr := decode o (wordOfBytes c0 c1 c2 c3)

/-- The encoder: the table of R59, unused bytes 0 (R56). -/
def encode (o : Opc) (i : Instr) : Word :=
  wordOfBytes (o.byteOf i.mnemonic) (i.operandByte .b1) (i.operandByte .b2) (i.operandByte .b3)

/-- The code bytes of an instruction in ascending offset order (R52, R59). -/
def encodeBytes (o : Opc) (i : Instr) : List Byte := bytesOfWord (encode o i)

/-- Byte `k` of an instruction whose bits are `w`, of which only the low `nbits` count. -/
def tableByte (nbits w k : Nat) : Byte := BitVec.ofNat 8 (w % 2 ^ nbits / 2 ^ (8 * k))

/-- The instruction the decoder reads, under the default OPC, from an instruction whose bits are `w`: byte `k` of the
code buffer is bits 8k+7..8k. -/
def decodeTableWord (nbits w : Nat) : Option Instr :=
  match decodeBytes .default (tableByte nbits w 0) (tableByte nbits w 1) (tableByte nbits w 2) (tableByte nbits w 3) with
  | .ok i => some i
  | .error _ => none

end Sys2Proof
end

