-- ==== Sys2Proof/Machine/State.lean ====
section
/-!
DEFINITION. The state of the core (spec/10_state.md section 1), the kinds of fault it knows (spec/60_exceptions.md R120),
the ways a step can have no next state, and the state right after reset.
-/

namespace Sys2Proof.Machine

open Sys2Proof

/-- The fault kinds of the core with the information of R120. They are the machine's own: taking one is a next state
(`State.raise`). -/
inductive FaultKind where
  /-- offset + width > MEM_SIZE (R121). -/
  | outOfBoundsMemoryAccess (offset width : Nat)
  /-- `pc` outside the code buffer while Running (R122). -/
  | outOfBoundsProgramCounter (pc : Nat)
  /-- The selected target is CODE_WORDS or more (R123). -/
  | invalidJumpTarget (target : Nat)
  /-- The opcode byte has no handler (R124). -/
  | invalidOpcode (op : Byte)
  /-- A string or token with its terminator does not fit before MEM_SIZE: the start offset, and the offset reached or
  the exclusive end of the needed range (R125). -/
  | stringOverflow (start reached : Nat)
  /-- A register operand byte is NUM_REGS or more (R126). -/
  | invalidRegisterIndex (field : OperandField) (index : Byte)
  deriving DecidableEq, Repr

/-- The VM status (R16). -/
inductive Status where
  | running
  | halted
  | faulted (kind : FaultKind)
  deriving DecidableEq, Repr

/-- One register: an unsigned 32-bit value and the opaque `type` tag that no handler reads or writes (R10, R11, R12).
The spec gives the tag no width and no values: the model carries a number as a bare label (log 4). -/
structure Reg where
  tag : Nat
  value : Word
  deriving DecidableEq, Repr

/-- One diagnostic on the error stream: which fault it was for. Its bytes are not recorded (R131, log 10). -/
structure Diag where
  fault : FaultKind
  deriving DecidableEq, Repr

/-- The memory segment's bytes as cells (offset, byte), in one canonical form (`Memory.wf`): offsets strictly rising,
no cell whose byte is what an unlisted offset reads as. -/
abbrev Memory := List Host.Cell

/-- What an unlisted offset reads as. Every contents of the segment can be listed, so this fixes no contents but those of
`State.reset`, where nothing is listed (DESIGN CHOICE, log 3). -/
def unlistedByte : Byte := 0

/-- The state of the core: the execution context, the status and the console streams (10_state.md section 1), with the
parameters of the run (R5, log 1). -/
structure State where
  /-- The register file; its length is NUM_REGS (R10). -/
  regs : List Reg
  /-- The program counter, a word index (R14). -/
  pc : Nat
  /-- Running, Halted or Faulted (R16). -/
  status : Status
  /-- The memory segment M (R19). -/
  mem : Memory
  /-- IN: the input bytes not yet consumed (R22). -/
  input : List Byte
  /-- OUT: the bytes emitted so far, oldest first (R22). -/
  output : List Byte
  /-- ERR: the diagnostics emitted so far, oldest first (R22). -/
  err : List Diag
  /-- The parameters of the run: MEM_SIZE, OPC, WS, CODE (R5). -/
  cfg : Config
  deriving DecidableEq, Repr

/-- Why a step has no next state. These are the model's own names for "no step exists" (R75); the machine's faults are
`FaultKind`s and are taken as next states. -/
inductive Fault where
  /-- Raised by `step` in status Halted, which is terminal (R75). Safe: the hardware has no step there. -/
  | alreadyHalted
  /-- Raised by `step` in status Faulted, which is terminal (R75). Safe: the hardware has no step there. -/
  | alreadyFaulted (kind : FaultKind)
  deriving DecidableEq, Repr

/-- What the model does not accept. -/
inductive Refusal where
  /-- Raised by an arm of `exec` whose instruction has no meaning yet; no arm is one. Safe. -/
  | notModelled (mnemonic : String)
  /-- Raised by `step` when CODE_LEN is no multiple of 4, a precondition of the block (R5, R153): "A model refuses other
  inputs" (D22, log 9). Safe. -/
  | codeLengthNotWholeWords
  deriving DecidableEq, Repr

/-- The outcome of one instruction or one step. -/
abbrev Exec := Host.Outcome State Fault Refusal

/-- The core right after reset with the default parameters of R5 (R24, R26, R27, R29, R150): 16 registers of value 0,
`pc` 0, Running, OUT and ERR empty. The tags' 0 is the model's (log 4), so are the empty CODE and IN, which the host
supplies (log 2), and the memory with nothing listed (log 3). `State.resetWith` takes any parameters. -/
def State.reset : State where
  regs := List.replicate 16 ⟨0, 0⟩
  pc := 0
  status := .running
  mem := []
  input := []
  output := []
  err := []
  cfg := { memSize := 8192, opc := .default, ws := defaultWs, code := [] }

end Sys2Proof.Machine
end

