-- ==== Sys2Proof/Machine/Ops.lean ====
section
/-!
DEFINITION. The named operations over registers, memory, the console streams, the program counter and the status:
spec/10_state.md, 20_memory.md, 40_fetch_dispatch.md, 45_console_io.md, and the taking of a fault (60_exceptions.md).
There is no return from a fault to write beside it: "There is no return-from-trap instruction and no way to resume"
(R133).
-/

namespace Sys2Proof.Machine

open Sys2Proof

/-! ## Taking a fault -/

/-- Fault entry (R130): one diagnostic is appended to ERR and the status becomes Faulted. Nothing else happens: no state
is saved, control goes nowhere, nothing is rolled back (R132). -/
def State.raise (s : State) (k : FaultKind) : State :=
  { s with err := s.err ++ [⟨k⟩], status := .faulted k }

/-- A handler's result: its next state, or the fault it raised taken in `s`. -/
def State.orRaise (s : State) : Except FaultKind State → Exec
  | .ok t => .next t
  | .error k => .next (s.raise k)

/-- The text of a fault's diagnostic where the spec gives one (R131). -/
def FaultKind.text : FaultKind → Option String
  | .outOfBoundsMemoryAccess _ _ => some "Segmentation fault"
  | .outOfBoundsProgramCounter _ => some "Segmentation fault"
  | .invalidJumpTarget _ => some "Segmentation fault"
  | .stringOverflow _ _ => some "Segmentation fault"
  | .invalidOpcode _ => none
  | .invalidRegisterIndex _ _ => none

/-- The exit code reported to the host (R136): none while the run has not ended. -/
def Status.exitCode : Status → Option Nat
  | .running => none
  | .halted => some 0
  | .faulted _ => some 1

/-! ## Registers -/

/-- NUM_REGS: the length of the register file (R5, R10). -/
def State.numRegs (s : State) : Nat := s.regs.length

/-- `x[i]`: the value of register `i` (R9, R13). Every handler checks the index first (R58), so the value at an index of
NUM_REGS or more is used by none. -/
def State.readReg (s : State) (i : Byte) : Word := (s.regs[i.toNat]?).elim 0 Reg.value

/-- `x[i] <- v`: all 32 bits of the value are written, the `type` tag is not touched (R11, R12). -/
def State.writeReg (s : State) (i : Byte) (v : Word) : State :=
  { s with regs := s.regs.modify i.toNat (fun r => { r with value := v }) }

/-! ## Memory -/

/-- The canonical form of a memory: offsets strictly rising, no listed byte equal to the unlisted one. -/
def Memory.wf (m : Memory) : Bool :=
  decide ((m.map Prod.fst).Pairwise (· < ·)) && m.all (fun c => c.2 ≠ unlistedByte)

/-- The byte at an offset. -/
def Memory.read : Memory → Nat → Byte
  | [], _ => unlistedByte
  | c :: rest, a => if c.1 = a then c.2 else Memory.read rest a

/-- A cell put before the first cell of a higher offset. -/
def Memory.insertCell : Memory → Host.Cell → Memory
  | [], c => [c]
  | d :: rest, c => if c.1 < d.1 then c :: d :: rest else d :: Memory.insertCell rest c

/-- One byte written at an offset, the canonical form kept. -/
def Memory.write (m : Memory) (a : Nat) (v : Byte) : Memory :=
  if v = unlistedByte then m.filter (fun c => c.1 ≠ a)
  else Memory.insertCell (m.filter (fun c => c.1 ≠ a)) (a, v)

/-- A run of bytes written at ascending offsets (R41, R107). -/
def Memory.writeRun : Memory → Nat → List Byte → Memory
  | m, _, [] => m
  | m, a, v :: rest => Memory.writeRun (Memory.write m a v) (a + 1) rest

/-- `M[a]` (R9). -/
def State.readByte (s : State) (a : Nat) : Byte := Memory.read s.mem a

/-- The bounds check: an access of `n` bytes at offset `a` is admitted exactly when `a + n <= MEM_SIZE`, on unbounded
integers (R34, D15). -/
def State.admits (s : State) (a n : Nat) : Bool := decide (a + n ≤ s.cfg.memSize)

/-- `readMemoryByte` (R31), which is `MemRead(a, 1)` (R46). -/
def State.readMemoryByte (s : State) (offset : Word) : Except FaultKind Byte :=
  if s.admits offset.toNat 1 then .ok (s.readByte offset.toNat)
  else .error (.outOfBoundsMemoryAccess offset.toNat 1)

/-- `readMemoryWord` (R32), which is `MemRead(a, 4)` (R46): little-endian, no alignment asked. No instruction uses it
(D27). -/
def State.readMemoryWord (s : State) (offset : Word) : Except FaultKind Word :=
  if s.admits offset.toNat 4 then
    .ok (wordOfBytes (s.readByte offset.toNat) (s.readByte (offset.toNat + 1)) (s.readByte (offset.toNat + 2))
      (s.readByte (offset.toNat + 3)))
  else .error (.outOfBoundsMemoryAccess offset.toNat 4)

/-- `writeMemoryByte` (R33), which is `MemWrite(a, 1, v)` (R46). -/
def State.writeMemoryByte (s : State) (offset : Word) (v : Byte) : Except FaultKind State :=
  if s.admits offset.toNat 1 then .ok { s with mem := Memory.write s.mem offset.toNat v }
  else .error (.outOfBoundsMemoryAccess offset.toNat 1)

/-! ## Console streams -/

/-- `Emit` of each byte in order (R9, R108). -/
def State.emit (s : State) (bytes : List Byte) : State := { s with output := s.output ++ bytes }

/-- The bytes `puts` emits from offset `i` on, at most `fuel` of them, and whether a zero byte ended them: with `fuel`
the number of bytes up to MEM_SIZE this is the loop of R106. -/
def Memory.scanString (m : Memory) : Nat → Nat → List Byte × Bool
  | 0, _ => ([], false)
  | fuel + 1, i =>
    if Memory.read m i = 0 then ([], true)
    else
      let r := Memory.scanString m fuel (i + 1)
      (Memory.read m i :: r.1, r.2)

/-- Whether a byte is whitespace: membership in WS (R110, R107). DESIGN CHOICE (log 14): a WS that holds 0x00 is outside
the parameters' range (`Config.wf`), since R110 says "The byte 0x00 is not whitespace"; in a state that has one all the same,
0x00 is whitespace like every member of WS. -/
def State.isWs (s : State) (b : Byte) : Bool := s.cfg.ws.contains b

/-- IN after the leading whitespace is skipped (R107, part 1). -/
def State.inputSkipped (s : State) : List Byte := s.input.dropWhile s.isWs

/-- The token `gets` reads: the longest run of non-whitespace bytes after the leading whitespace; end of input ends it
(R107 part 2, R109, D17). -/
def State.token (s : State) : List Byte := s.inputSkipped.takeWhile (fun b => !s.isWs b)

/-- IN after the token: the delimiter stays (R107 part 2, D17). -/
def State.inputAfterToken (s : State) : List Byte := s.inputSkipped.dropWhile (fun b => !s.isWs b)

/-! ## Program counter and code buffer -/

/-- CODE_WORDS of the run (R5). -/
def State.codeWords (s : State) : Nat := s.cfg.codeWords

/-- A byte of the code buffer. Fetch reads only offsets inside the buffer (R72), so the byte beyond its end is used by
none. -/
def State.codeByte (s : State) (k : Nat) : Byte := (s.cfg.code[k]?).getD 0

/-- Fetch: the four code bytes at `4*pc`, little-endian (R52, R72). -/
def State.fetchWord (s : State) : Word :=
  wordOfBytes (s.codeByte (4 * s.pc)) (s.codeByte (4 * s.pc + 1)) (s.codeByte (4 * s.pc + 2)) (s.codeByte (4 * s.pc + 3))

/-- The advance by one word before the handler runs (R73). -/
def State.advancePc (s : State) : State := { s with pc := s.pc + 1 }

/-- `pc` set to a target after the bound check that precedes it (R102). -/
def State.jumpTo (s : State) (target : Nat) : Exec :=
  if target < s.codeWords then .next { s with pc := target } else .next (s.raise (.invalidJumpTarget target))

/-- The fault a word without a handler raises (R57, R124). -/
def decodeFault : DecodeError → FaultKind
  | .invalidOpcode op => .invalidOpcode op

/-- The range check that closes a step: made only while the status is Running (R71 part 4, R74). -/
def State.checkPc (s : State) : State :=
  if s.status = .running ∧ s.codeWords ≤ s.pc then s.raise (.outOfBoundsProgramCounter s.pc) else s

/-- A step's closing check after a handler's outcome; an outcome without a next state is passed on. -/
def closeStep : Exec → Exec
  | .next t => .next t.checkPc
  | .fault f => .fault f
  | .refused r => .refused r

/-! ## Reset -/

/-- Reset with any parameters (R24 to R29, R150): every register 0, `pc` 0, Running, memory MEM_INIT, IN the whole input,
OUT and ERR empty. The tags' 0 is the model's (log 4). -/
def State.resetWith (p : Params) : State where
  regs := List.replicate p.numRegs ⟨0, 0⟩
  pc := 0
  status := .running
  mem := Memory.writeRun [] 0 p.memInit
  input := p.input
  output := []
  err := []
  cfg := p.toConfig

end Sys2Proof.Machine
end

