-- ==== Sys2Proof/Machine/Operands.lean ====
section
/-!
DEFINITION. The operand forms of spec/30_encoding.md R53 and R54: register operands with the index check of R58, the 8-bit
immediate value, the 8-bit word index, and the register-indirect byte offset of spec/42_data_movement.md.
-/

namespace Sys2Proof.Machine

open Sys2Proof

/-- The first operand byte, in the order given, that is no register index (R58): its field and its value. -/
def State.badRegister (s : State) : List (OperandField × Byte) → Option (OperandField × Byte)
  | [] => none
  | p :: rest => if s.numRegs ≤ p.2.toNat then some p else State.badRegister s rest

/-- The register-index check before any other effect of a handler (R58, R96): the first bad field faults, else the
handler goes on. -/
def State.withRegisters (s : State) (fields : List (OperandField × Byte)) (handler : Exec) : Exec :=
  match s.badRegister fields with
  | some p => .next (s.raise (.invalidRegisterIndex p.1 p.2))
  | none => handler

/-- Format R: B1 is a register (R53). -/
def State.withR (s : State) (b1 : Byte) (handler : Exec) : Exec := s.withRegisters [(.b1, b1)] handler

/-- Format RR: B1 and B2 are registers (R53). -/
def State.withRR (s : State) (b1 b2 : Byte) (handler : Exec) : Exec := s.withRegisters [(.b1, b1), (.b2, b2)] handler

/-- Format RRR: B1, B2 and B3 are registers (R53). -/
def State.withRRR (s : State) (b1 b2 b3 : Byte) (handler : Exec) : Exec :=
  s.withRegisters [(.b1, b1), (.b2, b2), (.b3, b3)] handler

/-- A byte widened to a word with zeros: an immediate value (R54, R85) or a loaded byte (R82, D13). -/
def zext32 (b : Byte) : Word := b.setWidth 32

/-- The low byte of a word (R83). -/
def lowByte (w : Word) : Byte := w.extractLsb' 0 8

/-- An immediate word index, not scaled (R54). -/
def wordIndex (b : Byte) : Nat := b.toNat

end Sys2Proof.Machine
end

