-- ==== Sys2Proof/Machine/Arithmetic.lean ====
section
/-! DEFINITION. Arithmetic and comparison: `add`, `sub`, `gt`, `ge`, `eq` (spec/43_arithmetic_compare.md). -/

namespace Sys2Proof.Machine

open Sys2Proof

/-- The prologue of R96, then the destination gets a function of the two source values, both read before the write. -/
def State.registerOp (s : State) (f : Word → Word → Word) (dst a b : Byte) : Exec :=
  s.withRRR dst a b (.next (s.writeReg dst (f (s.readReg a) (s.readReg b))))

/-- `add rD, rA, rB`: modulo 2^32 (R90, R95). -/
def execAdd (dst a b : Byte) (s : State) : Exec := s.registerOp (fun va vb => va + vb) dst a b

/-- `sub rD, rA, rB`: `a` minus `b`, modulo 2^32 (R91, R95). -/
def execSub (dst a b : Byte) (s : State) : Exec := s.registerOp (fun va vb => va - vb) dst a b

/-- `gt rD, rA, rB`: unsigned greater-than (R92, R95). -/
def execGt (dst a b : Byte) (s : State) : Exec := s.registerOp (fun va vb => boolWord (BitVec.ult vb va)) dst a b

/-- `ge rD, rA, rB`: unsigned greater-than-or-equal (R93, R95). -/
def execGe (dst a b : Byte) (s : State) : Exec := s.registerOp (fun va vb => boolWord (BitVec.ule vb va)) dst a b

/-- `eq rD, rA, rB`: equality of all 32 bits (R94, R95). -/
def execEq (dst a b : Byte) (s : State) : Exec := s.registerOp (fun va vb => boolWord (va == vb)) dst a b

end Sys2Proof.Machine
end

