-- ==== Sys2Proof/Machine/Console.lean ====
section
/-! DEFINITION. Console input and output: `puts`, `gets` (spec/45_console_io.md). -/

namespace Sys2Proof.Machine

open Sys2Proof

/-- The loop of `puts` from offset `a`: the bytes up to the first zero byte are emitted; where the segment ends first,
every byte up to its end is emitted and then the fault is raised with the first offset that is MEM_SIZE or more (R106,
R125). -/
def State.putString (s : State) (a : Nat) : Exec :=
  let r := Memory.scanString s.mem (s.cfg.memSize - a) a
  let t := s.emit r.1
  if r.2 then .next t else .next (t.raise (.stringOverflow a (max a s.cfg.memSize)))

/-- The parts of `gets` after the register check, for start offset `a`: the token is taken from IN, the whole range is
checked, and only then is memory written; on overflow the input stays consumed (R107, D18). -/
def State.getToken (s : State) (a : Nat) : Exec :=
  let tok := s.token
  let t := { s with input := s.inputAfterToken }
  if s.admits a (tok.length + 1) then .next { t with mem := Memory.writeRun s.mem a (tok ++ [0]) }
  else .next (t.raise (.stringOverflow a (a + tok.length + 1)))

/-- `puts rA`: write the null-terminated string at `x[A]` to OUT, without the terminator (R106). -/
def execPuts (addr : Byte) (s : State) : Exec := s.withR addr (s.putString (s.readReg addr).toNat)

/-- `gets rA`: read one whitespace-delimited token from IN into memory at `x[A]`, null-terminated (R107). -/
def execGets (addr : Byte) (s : State) : Exec := s.withR addr (s.getToken (s.readReg addr).toNat)

end Sys2Proof.Machine
end

