-- ==== Sys2Proof/Machine/Control.lean ====
section
/-! DEFINITION. Control transfer: `ite`, `jump` (spec/44_control_transfer.md). -/

namespace Sys2Proof.Machine

open Sys2Proof

/-- `ite rC, then, else`: both arms are immediate word indices; only the selected one is bound-checked (R100, D3, D23). -/
def execIte (cond thenAddr elseAddr : Byte) (s : State) : Exec :=
  s.withR cond (s.jumpTo (wordIndex (if s.readReg cond ≠ 0 then thenAddr else elseAddr)))

/-- `jump target`: unconditional, an immediate word index (R101). -/
def execJump (target : Byte) (s : State) : Exec := s.jumpTo (wordIndex target)

end Sys2Proof.Machine
end

