-- ==== Sys2Proof/Machine/DataMovement.lean ====
section
/-! DEFINITION. Data movement: `load`, `store`, `move`, `puti` (spec/42_data_movement.md). -/

namespace Sys2Proof.Machine

open Sys2Proof

/-- `load rD, rA`: read one byte of memory into a register, zero-extended (R82). -/
def execLoad (dst srcAddr : Byte) (s : State) : Exec :=
  s.withRR dst srcAddr (s.orRaise ((s.readMemoryByte (s.readReg srcAddr)).map (fun b => s.writeReg dst (zext32 b))))

/-- `store rA, rS`: write the low byte of a register to memory (R83). -/
def execStore (addr src : Byte) (s : State) : Exec :=
  s.withRR addr src (s.orRaise (s.writeMemoryByte (s.readReg addr) (lowByte (s.readReg src))))

/-- `move rD, rS`: copy all 32 bits of a register (R84). -/
def execMove (dst src : Byte) (s : State) : Exec :=
  s.withRR dst src (.next (s.writeReg dst (s.readReg src)))

/-- `puti rD, imm`: put an 8-bit immediate into a register, zero-extended (R85). -/
def execPuti (dst imm : Byte) (s : State) : Exec := s.withR dst (.next (s.writeReg dst (zext32 imm)))

end Sys2Proof.Machine
end

