-- ==== Sys2Proof/Machine/System.lean ====
section
/-! DEFINITION. The system instruction: `halt` (spec/41_halt.md). -/

namespace Sys2Proof.Machine

open Sys2Proof

/-- `halt`: stop the run normally (R80). -/
def execHalt (s : State) : Exec := .next { s with status := .halted }

end Sys2Proof.Machine
end

