-- ==== Sys2Proof/Machine/Dispatch.lean ====
section
/-! DEFINITION. Dispatch of a decoded instruction to its handler (spec/40_fetch_dispatch.md R76). -/

namespace Sys2Proof.Machine

open Sys2Proof

/-- The handler of each instruction, run after the advance of `pc` (R73, R76). -/
def exec (i : Instr) (s : State) : Host.Outcome State Fault Refusal :=
  match i with
  | .halt => Sys2Proof.Machine.execHalt s
  | .load dst srcAddr => Sys2Proof.Machine.execLoad dst srcAddr s
  | .store addr src => Sys2Proof.Machine.execStore addr src s
  | .move dst src => Sys2Proof.Machine.execMove dst src s
  | .puti dst imm => Sys2Proof.Machine.execPuti dst imm s
  | .add dst a b => Sys2Proof.Machine.execAdd dst a b s
  | .sub dst a b => Sys2Proof.Machine.execSub dst a b s
  | .gt dst a b => Sys2Proof.Machine.execGt dst a b s
  | .ge dst a b => Sys2Proof.Machine.execGe dst a b s
  | .eq dst a b => Sys2Proof.Machine.execEq dst a b s
  | .ite cond thenAddr elseAddr => Sys2Proof.Machine.execIte cond thenAddr elseAddr s
  | .jump target => Sys2Proof.Machine.execJump target s
  | .puts addr => Sys2Proof.Machine.execPuts addr s
  | .gets addr => Sys2Proof.Machine.execGets addr s

end Sys2Proof.Machine
end

