-- ==== Sys2Proof/Machine/Step.lean ====
section
/-!
DEFINITION. One step of the core (spec/40_fetch_dispatch.md): fetch, advance, dispatch, closing check.
-/

namespace Sys2Proof.Machine

open Sys2Proof

/-- Parts 2 to 4 of a step whose fetched word is `w` (R71): the advance, the handler or the fault of a word that has none
(R76, R124), and the closing check. -/
def State.runWord (s : State) (w : Word) : Exec :=
  match decode s.cfg.opc w with
  | .ok i => closeStep (exec i s.advancePc)
  | .error e => .next (s.advancePc.raise (decodeFault e))

/-- One step. From a terminal status no step exists (R75). A `pc` outside the code buffer at the head of a step is the
check before the first fetch (R77): it happens in a run only with an empty code buffer, and executes nothing. A code
buffer that is not whole words is refused (D22). -/
def step (s : State) : Host.Outcome State Fault Refusal :=
  match s.status with
  | .halted => .fault .alreadyHalted
  | .faulted k => .fault (.alreadyFaulted k)
  | .running =>
    if s.cfg.codeLen % 4 ≠ 0 then .refused .codeLengthNotWholeWords
    else if s.codeWords ≤ s.pc then .next (s.raise (.outOfBoundsProgramCounter s.pc))
    else s.runWord s.fetchWord

/-- `s` with an instruction's four bytes in the code buffer at `4*pc`, where `step` fetches; the buffer is lengthened with
zero bytes so that it holds that word and the word after it, since otherwise the step would end by falling off the end of
the code (R74). This stands for the host's loading of a program (R153, log 2). -/
def State.withFetchWord (s : State) (nbits w : Nat) : State :=
  let padded := s.cfg.code ++ List.replicate (4 * s.pc + 8 - s.cfg.code.length) 0
  let word := [tableByte nbits w 0, tableByte nbits w 1, tableByte nbits w 2, tableByte nbits w 3]
  { s with cfg := { s.cfg with code := padded.take (4 * s.pc) ++ word ++ padded.drop (4 * s.pc + 4) } }

end Sys2Proof.Machine
end

