-- ==== Sys2Proof/WellFormed.lean ====
section
/-!
DEFINITION. What a program and a configuration must satisfy: the ranges of the parameters (spec/00_scope.md R5, WS narrowed by
log 14) and what spec/70_reset_and_hazards.md R154 asks of an instruction's operands. The machine assumes none of the instruction checks:
it tests each when the instruction runs and faults.
-/

namespace Sys2Proof

/-- OPC is injective: 14 distinct bytes (R5, R55). -/
def Opc.wf (o : Opc) : Bool := decide o.bytes.Nodup

/-- The ranges of R5 for the parameters a running core consults, CODE_LEN a multiple of 4 among them (D22). WS without 0x00
is DESIGN CHOICE (log 14): R5 gives WS the range "set of bytes", R110 says "The byte 0x00 is not whitespace". -/
def Config.wf (c : Config) : Bool :=
  decide (0 < c.memSize) && c.opc.wf && decide (c.codeLen % 4 = 0) && !c.ws.contains 0

/-- The ranges of R5 for everything a reset takes, with `Config.wf`'s narrowing of WS (log 14). -/
def Params.wf (p : Params) : Bool :=
  p.toConfig.wf && decide (16 ≤ p.numRegs) && decide (p.numRegs ≤ 256) && decide (p.memInit.length = p.memSize)

/-- Every register operand is below NUM_REGS (R58, R154). -/
def Instr.registersInRange (numRegs : Nat) (i : Instr) : Bool :=
  i.registerFields.all (fun f => (i.operandByte f).toNat < numRegs)

/-- Every jump target is below CODE_WORDS (R102, R154). -/
def Instr.targetsInRange (codeWords : Nat) (i : Instr) : Bool := i.targets.all (· < codeWords)

/-- What R154 asks of one instruction's operands. -/
def Instr.wf (numRegs codeWords : Nat) (i : Instr) : Bool :=
  i.registersInRange numRegs && i.targetsInRange codeWords

end Sys2Proof
end

