-- ==== Sys2Proof/Safety.lean ====
section
/-!
DEFINITION. The terms in which claims about the core are stated: the invariant that holds between steps, what an
instruction leaves unchanged, and views of a state that forget what no rule can tell apart.
-/

namespace Sys2Proof.Machine

open Sys2Proof

/-- The error stream agrees with the status: exactly the diagnostic of the fault the machine is in, and none before
(R130, R133: no fault is ever left, so at most one is taken). -/
def State.errMatchesStatus (s : State) : Prop :=
  match s.status with
  | .faulted k => s.err = [⟨k⟩]
  | .running => s.err = []
  | .halted => s.err = []

/-- The `pc` invariant (R14, R23): at most CODE_WORDS always, and below it while Running, but for the empty code buffer
before its first check (R77). -/
def State.pcInRange (s : State) : Prop :=
  s.pc ≤ s.codeWords ∧ (s.status = .running → s.pc < s.codeWords ∨ s.codeWords = 0)

/-- What holds between steps of every run (R5, R10, R14, R19, R23). -/
structure State.Inv (s : State) : Prop where
  /-- The parameters are in the ranges of R5, and WS does not hold 0x00 (the model's choice, log 14). -/
  config : s.cfg.wf = true
  /-- 16 to 256 registers (R5, R10). -/
  registers : 16 ≤ s.numRegs ∧ s.numRegs ≤ 256
  /-- The memory is in its one canonical form. -/
  canonical : Memory.wf s.mem = true
  /-- No offset of MEM_SIZE or more exists (R39). -/
  inSegment : ∀ c ∈ s.mem, c.1 < s.cfg.memSize
  /-- `pc` is in range (R23). -/
  pc : s.pcInRange
  /-- One diagnostic for the one fault taken, if any. -/
  err : s.errMatchesStatus

/-- `t` is `s` with register `d` holding `v` and nothing else changed: no other register's value, no tag, no other state
and no parameter (the frame of an instruction whose result goes to a register). -/
def SetsRegister (s t : State) (d : Byte) (v : Word) : Prop :=
  t = { s with regs := t.regs } ∧
  t.readReg d = v ∧
  (∀ r : Byte, r ≠ d → t.readReg r = s.readReg r) ∧
  t.regs.map Reg.tag = s.regs.map Reg.tag

/-- Every register operand of an instruction is below NUM_REGS (R58). -/
abbrev RegistersValid (s : State) (i : Instr) : Prop := i.registersInRange s.numRegs = true

/-- The instruction, run where its first bad register operand is field `f` with byte `b`, takes InvalidRegisterIndex and
does nothing else (R58). -/
def TrapsOnBadRegister (s : State) (i : Instr) : Prop :=
  ∀ (before after : List OperandField) (f : OperandField),
    i.registerFields = before ++ f :: after →
    (∀ g ∈ before, (i.operandByte g).toNat < s.numRegs) →
    s.numRegs ≤ (i.operandByte f).toNat →
    exec i s = .next (s.raise (.invalidRegisterIndex f (i.operandByte f)))

/-- Whether a status is Faulted. -/
def Status.isFaulted : Status → Bool
  | .faulted _ => true
  | .running => false
  | .halted => false

/-- A state with every register's `type` tag forgotten: R12 says no rule can tell the difference. -/
def State.eraseTags (s : State) : State := { s with regs := s.regs.map (fun r => { r with tag := 0 }) }

/-- An outcome seen through a view of its next state. -/
def viewNext (view : State → State) : Exec → Exec
  | .next t => .next (view t)
  | .fault f => .fault f
  | .refused r => .refused r

/-- The `n` bytes of the memory segment from offset `a` on, read one by one. -/
def State.bytesFrom (s : State) (a n : Nat) : List Byte := (List.range n).map (fun k => s.readByte (a + k))

/-- The fetch of a running machine is inside the code buffer: a step then runs one instruction (R71's precondition, with
D22's). -/
abbrev State.CanFetch (s : State) : Prop := s.status = .running ∧ s.cfg.codeLen % 4 = 0 ∧ s.pc < s.codeWords

end Sys2Proof.Machine
end

