-- ==== Sys2Proof/Certificates/Slice0/Obligations.lean ====
section
/-!
DEFINITION. The statements about the core, one definition each. A docstring names the rule of spec/ a statement follows, and
the spec's own decision (D<n> of spec/92_eei_decisions.md) or the log entry where a clause rests on one. "Completes" means
the instruction's own effect; a handler runs after the advance of `pc`, so in a statement about `exec` the state `s` has the
advanced `pc`.
-/

open Sys2Proof Sys2Proof.Machine

/-! ## Encoding -/

/-- Decode and encode agree: no bit of an encoding is dropped (30_encoding.md R51, R53, R55, R59), for every injective OPC,
on words and on code bytes. -/
def Obligations.DecodeOfEncodeIsTheInstruction : Prop :=
  ∀ (o : Opc), o.wf = true → ∀ i : Instr,
    decode o (encode o i) = .ok i ∧
    ∀ c0 c1 c2 c3 : Byte, encodeBytes o i = [c0, c1, c2, c3] → decodeBytes o c0 c1 c2 c3 = .ok i

/-- The other direction: encoding what a word decodes to gives the word back in its opcode and in every byte the format
uses (R51, R53, R56). -/
def Obligations.EncodeOfDecodeKeepsUsedBytes : Prop :=
  ∀ (o : Opc) (w : Word) (i : Instr), decode o w = .ok i →
    fieldB0 (encode o i) = fieldB0 w ∧
    ∀ f : OperandField, i.mnemonic.format.operandUse f ≠ .unused →
      operandField (encode o i) f = operandField w f

/-- Every word with the opcode byte of a mnemonic is that instruction, whatever its unused bytes (R55, R56; that unused
bytes are ignored is the spec's decision D21). -/
def Obligations.UnusedBytesAreIgnored : Prop :=
  ∀ (o : Opc) (m : Mnemonic) (w v : Word), o.wf = true → fieldB0 w = o.byteOf m →
    decode o w = .ok (m.instr (fieldB1 w) (fieldB2 w) (fieldB3 w)) ∧
    (fieldB0 v = fieldB0 w →
      (∀ f : OperandField, m.format.operandUse f ≠ .unused → operandField v f = operandField w f) →
      decode o v = decode o w)

/-- A word is rejected by name exactly when no mnemonic has its opcode byte, and of the 256 slots of the dispatch table 242
are unset (R21, R57; that an unset slot is an explicit fault is the spec's decision D4). -/
def Obligations.OpcodesWithoutHandlerAreRejected : Prop :=
  (∀ (o : Opc) (w : Word),
    decode o w = .error (.invalidOpcode (fieldB0 w)) ↔ ∀ m : Mnemonic, o.byteOf m ≠ fieldB0 w) ∧
  (∀ o : Opc, o.wf = true →
    ((List.range numFuncs).filter (fun b => (o.lookup (BitVec.ofNat 8 b)).isNone)).length = 242)

/-- The nine worked encodings of R62, under the default OPC (PRESUMED, log 5): the code bytes make the word, the word
decodes to the instruction, and the instruction encodes to the word. -/
def Obligations.WorkedEncodingsDecode : Prop :=
  ∀ row ∈ ([ ((0x40, 0x00, 0x05, 0x00), 0x00050040, .puti 0 5),
             ((0x40, 0x01, 0x07, 0x00), 0x00070140, .puti 1 7),
             ((0x50, 0x02, 0x00, 0x01), 0x01000250, .add 2 0 1),
             ((0x00, 0x00, 0x00, 0x00), 0x00000000, .halt),
             ((0x10, 0x00, 0x01, 0x00), 0x00010010, .load 0 1),
             ((0x20, 0x01, 0x00, 0x00), 0x00000120, .store 1 0),
             ((0xA0, 0x04, 0x09, 0x06), 0x060904A0, .ite 4 9 6),
             ((0xB0, 0x04, 0x00, 0x00), 0x000004B0, .jump 4),
             ((0xC0, 0x01, 0x00, 0x00), 0x000001C0, .puts 1) ] :
           List ((Byte × Byte × Byte × Byte) × Word × Instr)),
    wordOfBytes row.1.1 row.1.2.1 row.1.2.2.1 row.1.2.2.2 = row.2.1 ∧
    decode .default row.2.1 = .ok row.2.2 ∧
    encode .default row.2.2 = row.2.1

/-! ## The step -/

/-- A step runs the decoded instruction (R71): the word is the four code bytes at `4*pc`, little-endian (the spec's decision
D1, log 12); `pc` is advanced; the handler runs; and, only if the status is then Running (R74, the spec's decision D8, log
8), a `pc` outside the code buffer is the fatal fault reported as a segmentation fault (R131). -/
def Obligations.StepRunsTheDecodedInstruction : Prop :=
  (∀ (s : State) (c0 c1 c2 c3 : Byte) (i : Instr), s.CanFetch →
    s.cfg.code[4 * s.pc]? = some c0 → s.cfg.code[4 * s.pc + 1]? = some c1 →
    s.cfg.code[4 * s.pc + 2]? = some c2 → s.cfg.code[4 * s.pc + 3]? = some c3 →
    decode s.cfg.opc (wordOfBytes c0 c1 c2 c3) = .ok i →
    step s =
      match exec i { s with pc := s.pc + 1 } with
      | .next t =>
        if t.status = .running ∧ t.codeWords ≤ t.pc then .next (t.raise (.outOfBoundsProgramCounter t.pc)) else .next t
      | .fault f => .fault f
      | .refused r => .refused r) ∧
  (∀ p : Nat, (FaultKind.outOfBoundsProgramCounter p).text = some "Segmentation fault")

/-- An instruction's four encoded bytes standing in the code buffer at `4*pc` are what a step runs (R52, R71; the byte order
is the spec's decision D1). -/
def Obligations.EncodedInstructionAtPcIsRun : Prop :=
  ∀ (s : State) (i : Instr), s.CanFetch → s.cfg.opc.wf = true →
    (s.cfg.code.drop (4 * s.pc)).take 4 = encodeBytes s.cfg.opc i →
    step s = closeStep (exec i { s with pc := s.pc + 1 })

/-- A word whose opcode byte has no handler takes InvalidOpcode after the advance, and nothing but `pc` has changed (R76,
R124; an explicit fault is the spec's decision D4). -/
def Obligations.WordWithoutHandlerFaults : Prop :=
  ∀ s : State, s.CanFetch → (∀ m : Mnemonic, s.cfg.opc.byteOf m ≠ fieldB0 s.fetchWord) →
    step s = .next (State.raise { s with pc := s.pc + 1 } (.invalidOpcode (fieldB0 s.fetchWord)))

/-- The check before the first fetch: a `pc` outside the code buffer faults and executes nothing (R77; the spec's decision
D9). -/
def Obligations.FetchOutsideTheCodeFaults : Prop :=
  ∀ s : State, s.status = .running → s.cfg.codeLen % 4 = 0 → s.codeWords ≤ s.pc →
    step s = .next (s.raise (.outOfBoundsProgramCounter s.pc))

/-- Halted and Faulted are terminal: no step exists from either (R75, R133; no reset-free way back is the spec's decision
D29). The names of the two stops are the model's (log 7). -/
def Obligations.NoStepFromATerminalStatus : Prop :=
  ∀ s : State,
    (s.status ≠ .running → ∀ t : State, step s ≠ .next t) ∧
    (s.status = .halted → step s = .fault .alreadyHalted) ∧
    (∀ k : FaultKind, s.status = .faulted k → step s = .fault (.alreadyFaulted k))

/-- While Running a step always exists, and every handler answers a next state: no operand value ends a run without the
status saying so (R7, R75; R161 by the spec's decision D26). -/
def Obligations.AStepExistsWhileRunning : Prop :=
  (∀ s : State, s.status = .running → s.cfg.codeLen % 4 = 0 → ∃ t, step s = .next t) ∧
  (∀ (i : Instr) (s : State), ∃ t, exec i s = .next t)

/-- A code buffer that is not whole words is refused by name, and nothing else is refused (the spec's decision D22, "A model
refuses other inputs"; log 9). -/
def Obligations.OnlyBrokenCodeLengthIsRefused : Prop :=
  ∀ s : State, (∃ r, step s = .refused r) ↔ (s.status = .running ∧ s.cfg.codeLen % 4 ≠ 0)

/-- `pc` (R15, R73): a step advances it before the handler runs and closes with the range check (R74, the spec's decision D8,
log 8); twelve instructions leave it there; `jump` overwrites it with its target and `ite` with the selected one of its two
(R100; both immediate word indices is the spec's decision D3, log 12), below CODE_WORDS (R102); and no instruction reads it:
apart from `pc` itself, what an instruction does is the same at every `pc`. -/
def Obligations.OnlyJumpAndIteWritePc : Prop :=
  (∀ (s : State) (i : Instr), s.CanFetch → decode s.cfg.opc s.fetchWord = .ok i →
    step s = closeStep (exec i { s with pc := s.pc + 1 })) ∧
  (∀ (i : Instr) (s t : State), exec i s = .next t → i.mnemonic ≠ .jump → i.mnemonic ≠ .ite → t.pc = s.pc) ∧
  (∀ (x : Byte) (s t : State), exec (.jump x) s = .next t → t.err = s.err → t.pc = x.toNat ∧ t.pc < s.codeWords) ∧
  (∀ (c x y : Byte) (s t : State), exec (.ite c x y) s = .next t → t.err = s.err →
    t.pc = (if s.readReg c ≠ 0 then x.toNat else y.toNat) ∧ t.pc < s.codeWords) ∧
  (∀ (i : Instr) (s : State) (p : Nat),
    viewNext (fun t => { t with pc := 0 }) (exec i { s with pc := p }) =
      viewNext (fun t => { t with pc := 0 }) (exec i s))

/-- No instruction writes the code buffer, and none reads it as data: with other bytes in a buffer of the same length an
instruction does the same (R20). -/
def Obligations.CodeIsNeitherReadNorWritten : Prop :=
  (∀ (i : Instr) (s t : State), exec i s = .next t → t.cfg.code = s.cfg.code) ∧
  (∀ (s t : State), step s = .next t → t.cfg.code = s.cfg.code) ∧
  (∀ (i : Instr) (s : State) (code : List Byte), code.length = s.cfg.code.length →
    exec i { s with cfg := { s.cfg with code := code } } =
      viewNext (fun t => { t with cfg := { t.cfg with code := code } }) (exec i s))

/-- The parameters of a run, the number of registers and the type tags are constant (R5, R10, R21; that no rule writes a tag
is the spec's decision D12). -/
def Obligations.StepKeepsParametersAndTags : Prop :=
  ∀ s t : State, step s = .next t →
    t.cfg = s.cfg ∧ t.numRegs = s.numRegs ∧ t.regs.map Reg.tag = s.regs.map Reg.tag

/-! ## The instructions -/

/-- `halt` (R80): decoded from B0 alone; it writes the status only; the range check of `pc` is not applied after it, so it
may be the last word; the exit code is 0. -/
def Obligations.HaltStopsTheRun : Prop :=
  (∀ (o : Opc) (w : Word), o.wf = true → fieldB0 w = o.halt → decode o w = .ok .halt) ∧
  (∀ s : State, exec .halt s = .next { s with status := .halted }) ∧
  (∀ s : State, s.CanFetch → decode s.cfg.opc s.fetchWord = .ok .halt →
    step s = .next { s with pc := s.pc + 1, status := .halted }) ∧
  Status.halted.exitCode = some 0

/-- `load` (R82): completes with the byte, zero-extended (D13), in the destination and nothing else changed; faults at
MEM_SIZE and above; takes the first bad register operand (D5). -/
def Obligations.LoadReadsAByte : Prop :=
  (∀ (o : Opc) (w : Word), o.wf = true → fieldB0 w = o.load → decode o w = .ok (.load (fieldB1 w) (fieldB2 w))) ∧
  (∀ (s : State) (d a : Byte), d.toNat < s.numRegs → a.toNat < s.numRegs → (s.readReg a).toNat < s.cfg.memSize →
    ∃ t, exec (.load d a) s = .next t ∧
      SetsRegister s t d (BitVec.ofNat 32 (s.readByte (s.readReg a).toNat).toNat)) ∧
  (∀ (s : State) (d a : Byte), d.toNat < s.numRegs → a.toNat < s.numRegs → s.cfg.memSize ≤ (s.readReg a).toNat →
    exec (.load d a) s = .next (s.raise (.outOfBoundsMemoryAccess (s.readReg a).toNat 1))) ∧
  (∀ (s : State) (d a : Byte), TrapsOnBadRegister s (.load d a))

/-- `store` (R83): completes with the source's low byte at the address register's offset, every other byte as before and
nothing but memory changed; faults at MEM_SIZE and above; takes the first bad register operand (D5). -/
def Obligations.StoreWritesTheLowByte : Prop :=
  (∀ (o : Opc) (w : Word), o.wf = true → fieldB0 w = o.store → decode o w = .ok (.store (fieldB1 w) (fieldB2 w))) ∧
  (∀ (s : State) (a r : Byte), a.toNat < s.numRegs → r.toNat < s.numRegs → (s.readReg a).toNat < s.cfg.memSize →
    ∃ t, exec (.store a r) s = .next t ∧
      t = { s with mem := t.mem } ∧
      (t.readByte (s.readReg a).toNat).toNat = (s.readReg r).toNat % 256 ∧
      (∀ b : Nat, b ≠ (s.readReg a).toNat → t.readByte b = s.readByte b)) ∧
  (∀ (s : State) (a r : Byte), a.toNat < s.numRegs → r.toNat < s.numRegs → s.cfg.memSize ≤ (s.readReg a).toNat →
    exec (.store a r) s = .next (s.raise (.outOfBoundsMemoryAccess (s.readReg a).toNat 1))) ∧
  (∀ (s : State) (a r : Byte), TrapsOnBadRegister s (.store a r))

/-- `move` (R84): completes with all 32 bits of the source in the destination and nothing else changed; takes the first bad
register operand (D5). -/
def Obligations.MoveCopiesARegister : Prop :=
  (∀ (o : Opc) (w : Word), o.wf = true → fieldB0 w = o.move → decode o w = .ok (.move (fieldB1 w) (fieldB2 w))) ∧
  (∀ (s : State) (d r : Byte), d.toNat < s.numRegs → r.toNat < s.numRegs →
    ∃ t, exec (.move d r) s = .next t ∧ SetsRegister s t d (s.readReg r)) ∧
  (∀ (s : State) (d r : Byte), TrapsOnBadRegister s (.move d r))

/-- `puti` (R85, R54): completes with the immediate, zero-extended, in the destination and nothing else changed, whatever
the immediate; takes a bad destination (D5). -/
def Obligations.PutiPutsTheImmediate : Prop :=
  (∀ (o : Opc) (w : Word), o.wf = true → fieldB0 w = o.puti → decode o w = .ok (.puti (fieldB1 w) (fieldB2 w))) ∧
  (∀ (s : State) (d v : Byte), d.toNat < s.numRegs →
    ∃ t, exec (.puti d v) s = .next t ∧ SetsRegister s t d (BitVec.ofNat 32 v.toNat)) ∧
  (∀ (s : State) (d v : Byte), TrapsOnBadRegister s (.puti d v))

/-- `add` (R90, R95, R96): completes with the sum modulo 2^32 of the old source values; takes the first bad register operand
(D5). -/
def Obligations.AddWrapsModulo : Prop :=
  (∀ (o : Opc) (w : Word), o.wf = true → fieldB0 w = o.add →
    decode o w = .ok (.add (fieldB1 w) (fieldB2 w) (fieldB3 w))) ∧
  (∀ (s : State) (d a b : Byte), d.toNat < s.numRegs → a.toNat < s.numRegs → b.toNat < s.numRegs →
    ∃ t, exec (.add d a b) s = .next t ∧
      SetsRegister s t d (BitVec.ofNat 32 (((s.readReg a).toNat + (s.readReg b).toNat) % 2 ^ 32))) ∧
  (∀ (s : State) (d a b : Byte), TrapsOnBadRegister s (.add d a b))

/-- `sub` (R91, R95, R96): completes with the difference, `a` minus `b`, in 0..2^32-1 of the old source values; takes the
first bad register operand (D5). -/
def Obligations.SubWrapsModulo : Prop :=
  (∀ (o : Opc) (w : Word), o.wf = true → fieldB0 w = o.sub →
    decode o w = .ok (.sub (fieldB1 w) (fieldB2 w) (fieldB3 w))) ∧
  (∀ (s : State) (d a b : Byte), d.toNat < s.numRegs → a.toNat < s.numRegs → b.toNat < s.numRegs →
    ∃ t, exec (.sub d a b) s = .next t ∧
      SetsRegister s t d (BitVec.ofNat 32
        (if (s.readReg b).toNat ≤ (s.readReg a).toNat then (s.readReg a).toNat - (s.readReg b).toNat
         else (s.readReg a).toNat + 2 ^ 32 - (s.readReg b).toNat))) ∧
  (∀ (s : State) (d a b : Byte), TrapsOnBadRegister s (.sub d a b))

/-- `gt` (R92, R95, R96): completes with exactly 1 or 0, an unsigned comparison (D14) of the old source values; takes the
first bad register operand (D5). -/
def Obligations.GtComparesUnsigned : Prop :=
  (∀ (o : Opc) (w : Word), o.wf = true → fieldB0 w = o.gt →
    decode o w = .ok (.gt (fieldB1 w) (fieldB2 w) (fieldB3 w))) ∧
  (∀ (s : State) (d a b : Byte), d.toNat < s.numRegs → a.toNat < s.numRegs → b.toNat < s.numRegs →
    ∃ t, exec (.gt d a b) s = .next t ∧
      SetsRegister s t d (if (s.readReg a).toNat > (s.readReg b).toNat then 1 else 0)) ∧
  (∀ (s : State) (d a b : Byte), TrapsOnBadRegister s (.gt d a b))

/-- `ge` (R93, R95, R96): completes with exactly 1 or 0, an unsigned comparison (D14) of the old source values; takes the
first bad register operand (D5). -/
def Obligations.GeComparesUnsigned : Prop :=
  (∀ (o : Opc) (w : Word), o.wf = true → fieldB0 w = o.ge →
    decode o w = .ok (.ge (fieldB1 w) (fieldB2 w) (fieldB3 w))) ∧
  (∀ (s : State) (d a b : Byte), d.toNat < s.numRegs → a.toNat < s.numRegs → b.toNat < s.numRegs →
    ∃ t, exec (.ge d a b) s = .next t ∧
      SetsRegister s t d (if (s.readReg a).toNat ≥ (s.readReg b).toNat then 1 else 0)) ∧
  (∀ (s : State) (d a b : Byte), TrapsOnBadRegister s (.ge d a b))

/-- `eq` (R94, R96): completes with exactly 1 or 0, all 32 bits of the old source values compared; takes the first bad
register operand (D5). -/
def Obligations.EqComparesAllBits : Prop :=
  (∀ (o : Opc) (w : Word), o.wf = true → fieldB0 w = o.eq →
    decode o w = .ok (.eq (fieldB1 w) (fieldB2 w) (fieldB3 w))) ∧
  (∀ (s : State) (d a b : Byte), d.toNat < s.numRegs → a.toNat < s.numRegs → b.toNat < s.numRegs →
    ∃ t, exec (.eq d a b) s = .next t ∧
      SetsRegister s t d (if (s.readReg a).toNat = (s.readReg b).toNat then 1 else 0)) ∧
  (∀ (s : State) (d a b : Byte), TrapsOnBadRegister s (.eq d a b))

/-- `ite` (R100, R102; both arms immediate word indices is the spec's decision D3, only the selected one checked is D23):
completes with `pc` at the selected word index and nothing else changed; faults where that one is CODE_WORDS or more; takes
a bad condition register (D5). -/
def Obligations.IteSelectsAWordIndex : Prop :=
  (∀ (o : Opc) (w : Word), o.wf = true → fieldB0 w = o.ite →
    decode o w = .ok (.ite (fieldB1 w) (fieldB2 w) (fieldB3 w))) ∧
  (∀ (s : State) (c x y : Byte), c.toNat < s.numRegs → s.readReg c ≠ 0 → x.toNat < s.codeWords →
    exec (.ite c x y) s = .next { s with pc := x.toNat }) ∧
  (∀ (s : State) (c x y : Byte), c.toNat < s.numRegs → s.readReg c = 0 → y.toNat < s.codeWords →
    exec (.ite c x y) s = .next { s with pc := y.toNat }) ∧
  (∀ (s : State) (c x y : Byte), c.toNat < s.numRegs → s.readReg c ≠ 0 → s.codeWords ≤ x.toNat →
    exec (.ite c x y) s = .next (s.raise (.invalidJumpTarget x.toNat))) ∧
  (∀ (s : State) (c x y : Byte), c.toNat < s.numRegs → s.readReg c = 0 → s.codeWords ≤ y.toNat →
    exec (.ite c x y) s = .next (s.raise (.invalidJumpTarget y.toNat))) ∧
  (∀ (s : State) (c x y : Byte), TrapsOnBadRegister s (.ite c x y))

/-- `jump` (R101): completes with `pc` at the immediate word index and nothing else changed, no register read or checked;
faults where the target is CODE_WORDS or more, `pc` not written. -/
def Obligations.JumpSetsPc : Prop :=
  (∀ (o : Opc) (w : Word), o.wf = true → fieldB0 w = o.jump → decode o w = .ok (.jump (fieldB1 w))) ∧
  (∀ (s : State) (x : Byte), x.toNat < s.codeWords → exec (.jump x) s = .next { s with pc := x.toNat }) ∧
  (∀ (s : State) (x : Byte), s.codeWords ≤ x.toNat →
    exec (.jump x) s = .next (s.raise (.invalidJumpTarget x.toNat)))

/-- `puts` (R106, R108): where a zero byte ends the string inside the segment it completes with the bytes before it on OUT,
in ascending order, the terminator not among them, and nothing else changed; takes a bad register operand (D5). -/
def Obligations.PutsEmitsTheString : Prop :=
  (∀ (o : Opc) (w : Word), o.wf = true → fieldB0 w = o.puts → decode o w = .ok (.puts (fieldB1 w))) ∧
  (∀ (s : State) (r : Byte) (n : Nat), r.toNat < s.numRegs →
    (s.readReg r).toNat + n < s.cfg.memSize →
    (∀ k < n, s.readByte ((s.readReg r).toNat + k) ≠ 0) → s.readByte ((s.readReg r).toNat + n) = 0 →
    exec (.puts r) s = .next { s with output := s.output ++ s.bytesFrom (s.readReg r).toNat n }) ∧
  (∀ (s : State) (r : Byte), TrapsOnBadRegister s (.puts r))

/-- `puts` without a zero byte before the end of the segment (R106, R125; the fault's name is the spec's decision D16):
every byte up to the end is on OUT and stays, then StringOverflow with the first offset that is MEM_SIZE or more. -/
def Obligations.PutsWithoutTerminatorFaults : Prop :=
  ∀ (s : State) (r : Byte), r.toNat < s.numRegs →
    (∀ b : Nat, (s.readReg r).toNat ≤ b → b < s.cfg.memSize → s.readByte b ≠ 0) →
    exec (.puts r) s =
      .next (State.raise
        { s with output := s.output ++ s.bytesFrom (s.readReg r).toNat (s.cfg.memSize - (s.readReg r).toNat) }
        (.stringOverflow (s.readReg r).toNat (max (s.readReg r).toNat s.cfg.memSize)))

/-- `gets` (R107, R109; skipping, delimiter and end of input are the spec's decision D17): with IN made of whitespace, a
token and a rest, it completes with the token and a zero byte in memory where they fit, every other byte as before, the rest
left in IN, and nothing else changed; takes a bad register operand before any input is consumed (D5). -/
def Obligations.GetsStoresTheToken : Prop :=
  (∀ (o : Opc) (w : Word), o.wf = true → fieldB0 w = o.gets → decode o w = .ok (.gets (fieldB1 w))) ∧
  (∀ (s : State) (r : Byte) (lead tok rest : List Byte), r.toNat < s.numRegs →
    s.input = lead ++ (tok ++ rest) → (∀ b ∈ lead, b ∈ s.cfg.ws) → (∀ b ∈ tok, b ∉ s.cfg.ws) →
    (rest = [] ∨ (tok ≠ [] ∧ ∃ b more, rest = b :: more ∧ b ∈ s.cfg.ws)) →
    (s.readReg r).toNat + tok.length + 1 ≤ s.cfg.memSize →
    ∃ t, exec (.gets r) s = .next t ∧
      t = { s with input := rest, mem := t.mem } ∧
      (∀ k b, tok[k]? = some b → t.readByte ((s.readReg r).toNat + k) = b) ∧
      t.readByte ((s.readReg r).toNat + tok.length) = 0 ∧
      (∀ b : Nat, b < (s.readReg r).toNat ∨ (s.readReg r).toNat + tok.length < b → t.readByte b = s.readByte b)) ∧
  (∀ (s : State) (r : Byte), TrapsOnBadRegister s (.gets r))

/-- `gets` where token and terminator do not fit (R107, R125; nothing written and the input consumed is the spec's decision
D18): StringOverflow with the exclusive end of the needed range, IN after the token, memory as before. -/
def Obligations.GetsThatDoesNotFitFaults : Prop :=
  ∀ (s : State) (r : Byte) (lead tok rest : List Byte), r.toNat < s.numRegs →
    s.input = lead ++ (tok ++ rest) → (∀ b ∈ lead, b ∈ s.cfg.ws) → (∀ b ∈ tok, b ∉ s.cfg.ws) →
    (rest = [] ∨ (tok ≠ [] ∧ ∃ b more, rest = b :: more ∧ b ∈ s.cfg.ws)) →
    s.cfg.memSize < (s.readReg r).toNat + tok.length + 1 →
    exec (.gets r) s =
      .next (State.raise { s with input := rest }
        (.stringOverflow (s.readReg r).toNat ((s.readReg r).toNat + tok.length + 1)))

/-! ## Accessors -/

/-- `readMemoryByte` (R31): the byte below MEM_SIZE, the fault from MEM_SIZE on. Its answer holds no state: a read
changes none. -/
def Obligations.ReadMemoryByteChecksItsBound : Prop :=
  ∀ (s : State) (a : Word),
    (a.toNat < s.cfg.memSize → s.readMemoryByte a = .ok (s.readByte a.toNat)) ∧
    (s.cfg.memSize ≤ a.toNat → s.readMemoryByte a = .error (.outOfBoundsMemoryAccess a.toNat 1))

/-- `writeMemoryByte` (R33): one byte written below MEM_SIZE, every other byte as before and nothing but memory changed; the
fault from MEM_SIZE on. -/
def Obligations.WriteMemoryByteChecksItsBound : Prop :=
  ∀ (s : State) (a : Word) (v : Byte),
    (a.toNat < s.cfg.memSize →
      ∃ t, s.writeMemoryByte a v = .ok t ∧ t = { s with mem := t.mem } ∧ t.readByte a.toNat = v ∧
        ∀ b : Nat, b ≠ a.toNat → t.readByte b = s.readByte b) ∧
    (s.cfg.memSize ≤ a.toNat → s.writeMemoryByte a v = .error (.outOfBoundsMemoryAccess a.toNat 1))

/-- `readMemoryWord` (R32, R36; the sum that does not wrap is the spec's decision D15): four bytes inside the segment, the
lowest offset least significant, with no alignment asked; else the fault. -/
def Obligations.ReadMemoryWordIsLittleEndian : Prop :=
  ∀ (s : State) (a : Word),
    (a.toNat + 4 ≤ s.cfg.memSize →
      ∃ w, s.readMemoryWord a = .ok w ∧
        w.toNat = (s.readByte a.toNat).toNat + 2 ^ 8 * (s.readByte (a.toNat + 1)).toNat +
          2 ^ 16 * (s.readByte (a.toNat + 2)).toNat + 2 ^ 24 * (s.readByte (a.toNat + 3)).toNat) ∧
    (s.cfg.memSize < a.toNat + 4 → s.readMemoryWord a = .error (.outOfBoundsMemoryAccess a.toNat 4))

/-- A `load` after a `store` at the same offset sees the stored byte (R41, point (a); R82 by D13, R83): the low byte of the
value stored. -/
def Obligations.LoadAfterStoreSeesTheLowByte : Prop :=
  ∀ (s : State) (a r d : Byte), a.toNat < s.numRegs → r.toNat < s.numRegs → d.toNat < s.numRegs →
    (s.readReg a).toNat < s.cfg.memSize →
    ∃ t u, exec (.store a r) s = .next t ∧ exec (.load d a) t = .next u ∧
      (u.readReg d).toNat = (s.readReg r).toNat % 256

/-- A `gets` followed by a `puts` of the same register echoes the token without its delimiters (R111, an inference the spec
marks derived), where the token holds no zero byte (R107) and fits. -/
def Obligations.PutsAfterGetsEchoesTheToken : Prop :=
  ∀ (s : State) (r : Byte) (lead tok rest : List Byte), r.toNat < s.numRegs →
    s.input = lead ++ (tok ++ rest) → (∀ b ∈ lead, b ∈ s.cfg.ws) → (∀ b ∈ tok, b ∉ s.cfg.ws) → (∀ b ∈ tok, b ≠ 0) →
    (rest = [] ∨ (tok ≠ [] ∧ ∃ b more, rest = b :: more ∧ b ∈ s.cfg.ws)) →
    (s.readReg r).toNat + tok.length + 1 ≤ s.cfg.memSize →
    ∃ t u, exec (.gets r) s = .next t ∧ exec (.puts r) t = .next u ∧
      u.output = s.output ++ tok ∧ u.input = rest ∧ u.mem = t.mem ∧ u.regs = s.regs ∧ u.status = s.status

/-! ## Faults -/

/-- Fault entry (R130; a terminal status is the spec's decision D19): one diagnostic for the fault, the status, and nothing
else; the status it leaves is terminal for the host as exit code 1 (R136). -/
def Obligations.FaultEntryWritesStatusAndErrOnly : Prop :=
  ∀ (s : State) (k : FaultKind),
    s.raise k = { s with err := s.err ++ [⟨k⟩], status := .faulted k } ∧ (s.raise k).status.exitCode = some 1

/-- The diagnostic's text is Segmentation fault for the four bound violations and no other fault (R131), and for
InvalidOpcode and InvalidRegisterIndex no text is given (the spec's decision D20, log 10). -/
def Obligations.DiagnosticTextsOfBoundViolations : Prop :=
  (∀ k : FaultKind,
    k.text = some "Segmentation fault" ↔
      (∃ a n, k = .outOfBoundsMemoryAccess a n) ∨ (∃ p, k = .outOfBoundsProgramCounter p) ∨
      (∃ x, k = .invalidJumpTarget x) ∨ (∃ a b, k = .stringOverflow a b)) ∧
  (∀ op : Byte, (FaultKind.invalidOpcode op).text = none) ∧
  (∀ (f : OperandField) (b : Byte), (FaultKind.invalidRegisterIndex f b).text = none)

/-- The exit code (R136): 0 for Halted, 1 for Faulted of every kind, none for a run that has not ended. -/
def Obligations.ExitCodesOfTheStatus : Prop :=
  Status.halted.exitCode = some 0 ∧ (∀ k : FaultKind, (Status.faulted k).exitCode = some 1) ∧
    Status.running.exitCode = none

/-- Every instruction, before any other effect, takes InvalidRegisterIndex for its first register operand, in the order B1,
B2, B3, that is NUM_REGS or more, and never when all are in range (R58, R126; the fault is the spec's decision D5). -/
def Obligations.FirstBadRegisterOperandFaults : Prop :=
  ∀ (i : Instr) (s : State),
    TrapsOnBadRegister s i ∧
    (RegistersValid s i → ∀ (t : State) (f : OperandField) (b : Byte), exec i s = .next t →
      t.err ≠ s.err ++ [⟨.invalidRegisterIndex f b⟩])

/-- OutOfBoundsMemoryAccess (R121): raised by the three accessors where offset plus width is above MEM_SIZE, a sum that does
not wrap (R34, the spec's decision D15, log 12), hence by `load` and `store`, before the access: nothing is read into a
register and nothing is written. -/
def Obligations.OutOfBoundsAccessFaultsBeforeTheAccess : Prop :=
  (∀ (s : State) (a : Word), s.cfg.memSize < a.toNat + 1 →
    s.readMemoryByte a = .error (.outOfBoundsMemoryAccess a.toNat 1)) ∧
  (∀ (s : State) (a : Word), s.cfg.memSize < a.toNat + 4 →
    s.readMemoryWord a = .error (.outOfBoundsMemoryAccess a.toNat 4)) ∧
  (∀ (s : State) (a : Word) (v : Byte), s.cfg.memSize < a.toNat + 1 →
    s.writeMemoryByte a v = .error (.outOfBoundsMemoryAccess a.toNat 1)) ∧
  (∀ (s : State) (d a : Byte), RegistersValid s (.load d a) → s.cfg.memSize ≤ (s.readReg a).toNat →
    exec (.load d a) s = .next (s.raise (.outOfBoundsMemoryAccess (s.readReg a).toNat 1))) ∧
  (∀ (s : State) (a r : Byte), RegistersValid s (.store a r) → s.cfg.memSize ≤ (s.readReg a).toNat →
    exec (.store a r) s = .next (s.raise (.outOfBoundsMemoryAccess (s.readReg a).toNat 1)))

/-- What a faulting step has done (R132; keeping the state is the spec's decision D19). It has added its one diagnostic. By
StringOverflow it has advanced `pc` and, for `puts`, appended the bytes emitted before, for `gets`, consumed the input, and
nothing else. By any other fault of dispatch or of a handler it has advanced `pc` and nothing else. By the `pc` check, which
follows a completed handler (`OnlyFallingOffTheEndLeavesTheCode`), it leaves the `pc` it reports, and that is CODE_WORDS from
any state whose `pc` is at most CODE_WORDS, as the invariant has it (R14). -/
def Obligations.FaultsArePrecise : Prop :=
  ∀ (s t : State) (k : FaultKind), step s = .next t → t.status = .faulted k →
    t.err = s.err ++ [⟨k⟩] ∧
    ((∀ p, k ≠ .outOfBoundsProgramCounter p) → (∀ a b, k ≠ .stringOverflow a b) →
      t = State.raise { s with pc := s.pc + 1 } k) ∧
    (∀ a b, k = .stringOverflow a b →
      (∃ r out, decode s.cfg.opc s.fetchWord = .ok (.puts r) ∧
        t = State.raise { s with pc := s.pc + 1, output := s.output ++ out } k) ∨
      (∃ r, decode s.cfg.opc s.fetchWord = .ok (.gets r) ∧
        t = State.raise { s with pc := s.pc + 1, input := s.inputAfterToken } k)) ∧
    (∀ p, k = .outOfBoundsProgramCounter p →
      t.pc = p ∧ s.codeWords ≤ p ∧ (s.pc ≤ s.codeWords → p = s.codeWords))

/-- OutOfBoundsProgramCounter inside a run has one cause, falling off the end (R74, R122, an inference the spec marks
derived): the last word was an instruction other than `halt`, `jump` and `ite`, it completed, and its effects stay. -/
def Obligations.OnlyFallingOffTheEndLeavesTheCode : Prop :=
  ∀ (s t : State) (p : Nat), s.pc < s.codeWords → step s = .next t → t.status = .faulted (.outOfBoundsProgramCounter p) →
    p = s.codeWords ∧ s.pc + 1 = s.codeWords ∧
    ∃ i u, decode s.cfg.opc s.fetchWord = .ok i ∧ i.mnemonic ≠ .halt ∧ i.mnemonic ≠ .jump ∧ i.mnemonic ≠ .ite ∧
      exec i { s with pc := s.pc + 1 } = .next u ∧ u.status = .running ∧
      t = u.raise (.outOfBoundsProgramCounter p)

/-- At most one fault per step (R78, R134, inferences the spec marks derived): a step adds no diagnostic, or exactly the one
of the fault its status now names. -/
def Obligations.AtMostOneFaultPerStep : Prop :=
  ∀ s t : State, step s = .next t →
    (t.status.isFaulted = false ∧ t.err = s.err) ∨ ∃ k, t.status = .faulted k ∧ t.err = s.err ++ [⟨k⟩]

/-- The only transition from Running to Halted is by `halt` (R16; the status Faulted beside it is the spec's decision D19):
a step that leaves Halted has run the `halt` it fetched, and did nothing else but advance `pc`. -/
def Obligations.OnlyHaltHalts : Prop :=
  ∀ s t : State, step s = .next t → t.status = .halted →
    decode s.cfg.opc s.fetchWord = .ok .halt ∧ t = { s with pc := s.pc + 1, status := .halted }

/-! ## What instructions leave unchanged -/

/-- Registers: an instruction changes the value of its destination register alone, and only `load`, `move`, `puti`, `add`,
`sub`, `gt`, `ge` and `eq` have one (R11, R13; tags by D12). -/
def Obligations.OnlyTheDestinationRegisterChanges : Prop :=
  ∀ (i : Instr) (s t : State), exec i s = .next t →
    (∀ r : Byte, i.dest ≠ some r → t.readReg r = s.readReg r) ∧
    t.numRegs = s.numRegs ∧ t.regs.map Reg.tag = s.regs.map Reg.tag ∧ (i.dest = none → t.regs = s.regs)

/-- Memory: every byte is as before but the one a `store` stores to, at the value of its address register, and the token and
terminator of a `gets`, from the value of its register on (R19, R47). -/
def Obligations.OnlyStoreAndGetsChangeMemory : Prop :=
  ∀ (i : Instr) (s t : State), exec i s = .next t → ∀ b : Nat,
    (∀ a r, i = .store a r → b ≠ (s.readReg a).toNat) →
    (∀ r, i = .gets r → b < (s.readReg r).toNat ∨ (s.readReg r).toNat + s.token.length < b) →
    t.readByte b = s.readByte b

/-- Streams and status: only `gets` consumes IN, only `puts` appends to OUT, only the fault path appends to ERR, and only
`halt` and the fault path write the status (R16, R22, rules the spec marks with its decisions D19 and D24). -/
def Obligations.OnlyTheirInstructionsTouchTheStreams : Prop :=
  ∀ (i : Instr) (s t : State), exec i s = .next t →
    (i.mnemonic ≠ .gets → t.input = s.input) ∧
    (i.mnemonic ≠ .puts → t.output = s.output) ∧
    (t.err = s.err ∨ ∃ k, t.err = s.err ++ [⟨k⟩] ∧ t.status = .faulted k) ∧
    (t.err = s.err → i.mnemonic ≠ .halt → t.status = s.status)

/-! ## Reset and the invariant -/

/-- The state after reset (R150), for every choice of the parameters: registers 0 (R24, the spec's decision D10), `pc` 0
(R26, derived), Running (R27), memory MEM_INIT whatever that is (R28, D11), IN the whole input, OUT and ERR empty (R29, D24),
the parameters as given. -/
def Obligations.ResetLeavesTheStatedValues : Prop :=
  ∀ p : Params, p.memInit.length = p.memSize →
    (State.resetWith p).numRegs = p.numRegs ∧
    (∀ r : Byte, r.toNat < p.numRegs → (State.resetWith p).readReg r = 0) ∧
    (State.resetWith p).pc = 0 ∧
    (State.resetWith p).status = .running ∧
    (∀ a b, p.memInit[a]? = some b → (State.resetWith p).readByte a = b) ∧
    (State.resetWith p).input = p.input ∧
    (State.resetWith p).output = [] ∧
    (State.resetWith p).err = [] ∧
    (State.resetWith p).cfg = p.toConfig

/-- The invariant holds at the model's `State.reset` (its parameters are R5's defaults; the empty CODE, IN and memory listing
are the model's choice, log 2 and log 3). -/
def Obligations.ResetMeetsTheInvariantOfTheCore : Prop := State.reset.Inv

/-- The invariant holds after every reset whose parameters are in the ranges of R5 and whose WS does not hold 0x00. That a WS
with 0x00 is left out is the model's choice, not R5's, whose range for WS is any set of bytes (R110, log 14). -/
def Obligations.EveryResetMeetsTheInvariant : Prop := ∀ p : Params, p.wf = true → (State.resetWith p).Inv

/-- Every step keeps the invariant, from every state that meets it (R5, R10, R14, R19, R23; the canonical form is the
model's, log 3): parameters in the ranges of R5, WS without 0x00 (R110; the model's choice, log 14), 16 to 256
registers, memory canonical and inside the segment, `pc` in `0..CODE_WORDS` and below CODE_WORDS while Running, ERR in agreement with the status. -/
def Obligations.StepKeepsTheInvariant : Prop := ∀ s t : State, s.Inv → step s = .next t → t.Inv

/-- Equal memories are equal data (the model's canonical form, log 3): two memories in canonical form that read the same
everywhere are the same list. -/
def Obligations.CanonicalMemoriesAreDetermined : Prop :=
  ∀ m n : Memory, Memory.wf m = true → Memory.wf n = true → (∀ a : Nat, Memory.read m a = Memory.read n a) → m = n

/-! ## Isolation -/

/-- No rule can tell the type tags apart (R12, the spec's decision D12): two states that differ in tags alone step alike, to
states that differ in tags alone or to the same stop. -/
def Obligations.TypeTagsAreInert : Prop :=
  ∀ s t : State, s.eraseTags = t.eraseTags → viewNext State.eraseTags (step s) = viewNext State.eraseTags (step t)

/-- OUT and ERR are append-only and never read, and IN is only consumed from the front (R22, the spec's decision D24; R108,
R109): whatever stands on OUT and ERR before a step, the step adds the same bytes and diagnostics and does the same. -/
def Obligations.OutputsAreAppendOnlyAndNeverRead : Prop :=
  ∀ s t : State, step s = .next t →
    ∃ (out consumed : List Byte) (diags : List Diag),
      t.output = s.output ++ out ∧ t.err = s.err ++ diags ∧ s.input = consumed ++ t.input ∧
      ∀ (o : List Byte) (e : List Diag),
        step { s with output := o, err := e } = .next { t with output := o ++ out, err := e ++ diags }
end

