-- ==== Sys2Proof/Laws/Decode.lean ====
section
/-! SUPPORT. Small lemmas of the instruction word: fields of an assembled word, the look-up under an injective OPC. -/

namespace Sys2Proof

/-- Bit `i` of an assembled word: bits 7:0 are the byte at the lowest offset, and so upward (R52). -/
theorem getLsbD_wordOfBytes (c0 c1 c2 c3 : Byte) (i : Nat) :
    (wordOfBytes c0 c1 c2 c3).getLsbD i =
      if i < 8 then c0.getLsbD i
      else if i - 8 < 8 then c1.getLsbD (i - 8)
      else if i - 8 - 8 < 8 then c2.getLsbD (i - 8 - 8)
      else c3.getLsbD (i - 8 - 8 - 8) := by
  change (c3 ++ c2 ++ c1 ++ c0 : BitVec (8 + 8 + 8 + 8)).getLsbD i = _
  rw [BitVec.getLsbD_append, BitVec.getLsbD_append, BitVec.getLsbD_append]

@[simp] theorem fieldB0_wordOfBytes (c0 c1 c2 c3 : Byte) : fieldB0 (wordOfBytes c0 c1 c2 c3) = c0 := by
  apply BitVec.eq_of_getLsbD_eq
  intro i hi
  have e : 0 + i = i := by omega
  simp only [fieldB0, BitVec.getLsbD_extractLsb', getLsbD_wordOfBytes, e, hi, decide_true, Bool.true_and, if_true]

@[simp] theorem fieldB1_wordOfBytes (c0 c1 c2 c3 : Byte) : fieldB1 (wordOfBytes c0 c1 c2 c3) = c1 := by
  apply BitVec.eq_of_getLsbD_eq
  intro i hi
  have h0 : ¬ 8 + i < 8 := by omega
  have e : 8 + i - 8 = i := by omega
  simp only [fieldB1, BitVec.getLsbD_extractLsb', getLsbD_wordOfBytes, h0, e, hi,
    decide_true, Bool.true_and, if_true, if_false]

@[simp] theorem fieldB2_wordOfBytes (c0 c1 c2 c3 : Byte) : fieldB2 (wordOfBytes c0 c1 c2 c3) = c2 := by
  apply BitVec.eq_of_getLsbD_eq
  intro i hi
  have h0 : ¬ 16 + i < 8 := by omega
  have h1 : ¬ 16 + i - 8 < 8 := by omega
  have e : 16 + i - 8 - 8 = i := by omega
  simp only [fieldB2, BitVec.getLsbD_extractLsb', getLsbD_wordOfBytes, h0, h1, e, hi,
    decide_true, Bool.true_and, if_true, if_false]

@[simp] theorem fieldB3_wordOfBytes (c0 c1 c2 c3 : Byte) : fieldB3 (wordOfBytes c0 c1 c2 c3) = c3 := by
  apply BitVec.eq_of_getLsbD_eq
  intro i hi
  have h0 : ¬ 24 + i < 8 := by omega
  have h1 : ¬ 24 + i - 8 < 8 := by omega
  have h2 : ¬ 24 + i - 8 - 8 < 8 := by omega
  have e : 24 + i - 8 - 8 - 8 = i := by omega
  simp only [fieldB3, BitVec.getLsbD_extractLsb', getLsbD_wordOfBytes, h0, h1, h2, e, hi,
    decide_true, Bool.true_and, if_false]

/-- A word is its four bytes put together again. -/
theorem wordOfBytes_fields (w : Word) : wordOfBytes (fieldB0 w) (fieldB1 w) (fieldB2 w) (fieldB3 w) = w := by
  apply BitVec.eq_of_getLsbD_eq
  intro i hi
  simp only [getLsbD_wordOfBytes, fieldB0, fieldB1, fieldB2, fieldB3, BitVec.getLsbD_extractLsb']
  by_cases h0 : i < 8
  · simp [h0]
  by_cases h1 : i - 8 < 8
  · have e : 8 + (i - 8) = i := by omega
    simp [h0, h1, e]
  by_cases h2 : i - 8 - 8 < 8
  · have e : 16 + (i - 8 - 8) = i := by omega
    simp [h0, h1, h2, e]
  · have e : 24 + (i - 8 - 8 - 8) = i := by omega
    have h3 : i - 8 - 8 - 8 < 8 := by omega
    simp [h0, h1, h2, h3, e]

theorem Opc.bytes_eq_map (o : Opc) : o.bytes = Mnemonic.all.map o.byteOf := rfl

theorem Mnemonic.mem_all (m : Mnemonic) : m ∈ Mnemonic.all := by
  cases m <;> decide

/-- What a slot that holds a handler says (R21). -/
theorem Opc.byteOf_of_lookup {o : Opc} {op : Byte} {m : Mnemonic} (h : o.lookup op = some m) : o.byteOf m = op := by
  simpa using List.find?_some h

/-- A slot is unset exactly when no mnemonic has its byte (R57). -/
theorem Opc.lookup_eq_none_iff {o : Opc} {op : Byte} : o.lookup op = none ↔ ∀ m, o.byteOf m ≠ op := by
  simp [Opc.lookup, List.find?_eq_none, Mnemonic.mem_all]

/-- An injective OPC gives two mnemonics two bytes. -/
theorem Opc.byteOf_injective {o : Opc} (h : o.wf = true) {m n : Mnemonic} (e : o.byteOf m = o.byteOf n) : m = n := by
  have hn : (Mnemonic.all.map o.byteOf).Nodup := of_decide_eq_true h
  exact List.inj_on_of_nodup_map hn (Mnemonic.mem_all m) (Mnemonic.mem_all n) e

/-- Under an injective OPC the slot of a mnemonic's byte holds its handler (R55, R152). -/
theorem Opc.lookup_byteOf {o : Opc} (h : o.wf = true) (m : Mnemonic) : o.lookup (o.byteOf m) = some m := by
  cases hl : o.lookup (o.byteOf m) with
  | none => exact absurd rfl (Opc.lookup_eq_none_iff.mp hl m)
  | some n => rw [Opc.byteOf_injective h (Opc.byteOf_of_lookup hl)]

/-- Decoding goes by the opcode's slot alone (R55, R76). -/
theorem decode_of_lookup {o : Opc} {w : Word} {m : Mnemonic} (h : o.lookup (fieldB0 w) = some m) :
    decode o w = .ok (m.instr (fieldB1 w) (fieldB2 w) (fieldB3 w)) := by
  simp [decode, h]

theorem decode_of_unset {o : Opc} {w : Word} (h : o.lookup (fieldB0 w) = none) :
    decode o w = .error (.invalidOpcode (fieldB0 w)) := by
  simp [decode, h]

/-- What the decoder can answer: the instruction of the slot that is set, or the unset slot's byte. -/
theorem decode_cases (o : Opc) (w : Word) :
    (∃ m, o.byteOf m = fieldB0 w ∧ decode o w = .ok (m.instr (fieldB1 w) (fieldB2 w) (fieldB3 w))) ∨
    ((∀ m, o.byteOf m ≠ fieldB0 w) ∧ decode o w = .error (.invalidOpcode (fieldB0 w))) := by
  cases h : o.lookup (fieldB0 w) with
  | some m => exact .inl ⟨m, Opc.byteOf_of_lookup h, decode_of_lookup h⟩
  | none => exact .inr ⟨Opc.lookup_eq_none_iff.mp h, decode_of_unset h⟩

@[simp] theorem Mnemonic.instr_mnemonic (m : Mnemonic) (b1 b2 b3 : Byte) : (m.instr b1 b2 b3).mnemonic = m := by
  cases m <;> rfl

end Sys2Proof
end

