-- ==== Sys2Proof/Laws/Memory.lean ====
section
/-!
SUPPORT. The memory's laws: a byte written reads back, every other byte is as before, and every operation keeps the
canonical form and the segment's bound.
-/

namespace Sys2Proof.Machine

open Sys2Proof

theorem Memory.read_insertCell (m : Memory) (c : Host.Cell) (b : Nat) (h : ∀ d ∈ m, d.1 ≠ c.1) :
    Memory.read (Memory.insertCell m c) b = if c.1 = b then c.2 else Memory.read m b := by
  induction m with
  | nil => simp [Memory.insertCell, Memory.read]
  | cons d rest ih =>
    have hd : d.1 ≠ c.1 := h d (by simp)
    by_cases hlt : c.1 < d.1
    · simp [Memory.insertCell, hlt, Memory.read]
    · rw [Memory.insertCell, if_neg hlt, Memory.read, ih (fun e he => h e (by simp [he])), Memory.read]
      by_cases hb : d.1 = b
      · simp [hb, show ¬ c.1 = b from fun e => hd (hb.trans e.symm)]
      · simp [hb]

theorem Memory.read_erase (m : Memory) (a b : Nat) :
    Memory.read (m.filter (fun c => c.1 ≠ a)) b = if a = b then unlistedByte else Memory.read m b := by
  induction m with
  | nil => simp [Memory.read]
  | cons d rest ih =>
    by_cases hd : d.1 = a
    · rw [List.filter_cons_of_neg (by simpa using hd), ih, Memory.read]
      by_cases hb : a = b
      · simp [hb]
      · simp [hb, show ¬ d.1 = b from fun e => hb (hd.symm.trans e)]
    · rw [List.filter_cons_of_pos (by simpa using hd), Memory.read, ih, Memory.read]
      by_cases hb : d.1 = b
      · simp [hb, show ¬ a = b from fun e => hd (hb.trans e.symm)]
      · simp [hb]

/-- Reading after a write (R41): the byte written at its offset, every other byte as before. It needs no premise on the
memory. -/
theorem Memory.read_write (m : Memory) (a : Nat) (v : Byte) (b : Nat) :
    Memory.read (Memory.write m a v) b = if a = b then v else Memory.read m b := by
  rw [Memory.write]
  split
  · next hv => rw [Memory.read_erase, hv]
  · rw [Memory.read_insertCell _ _ _ (by intro d hd; simpa using (List.mem_filter.mp hd).2), Memory.read_erase]
    by_cases hb : a = b <;> simp [hb]

/-- Reading after a run of writes: the run's byte inside it, every other byte as before. -/
theorem Memory.read_writeRun (m : Memory) (a : Nat) (bytes : List Byte) (b : Nat) :
    Memory.read (Memory.writeRun m a bytes) b =
      if a ≤ b then (bytes[b - a]?).getD (Memory.read m b) else Memory.read m b := by
  induction bytes generalizing m a with
  | nil => simp [Memory.writeRun]
  | cons v rest ih =>
    rw [Memory.writeRun, ih, Memory.read_write]
    rcases Nat.lt_trichotomy a b with h | h | h
    · obtain ⟨n, rfl⟩ : ∃ n, b = a + 1 + n := ⟨b - (a + 1), by omega⟩
      have e1 : a + 1 + n - (a + 1) = n := by omega
      have e2 : a + 1 + n - a = n + 1 := by omega
      have e3 : a ≠ a + 1 + n := by omega
      have e4 : a ≤ a + 1 + n := by omega
      simp [e1, e2, e3, e4]
    · subst h
      simp
    · have e1 : ¬ a + 1 ≤ b := by omega
      have e2 : ¬ a ≤ b := by omega
      have e3 : a ≠ b := by omega
      simp [e1, e2, e3]

theorem Memory.wf_iff (m : Memory) :
    Memory.wf m = true ↔ (m.map Prod.fst).Pairwise (· < ·) ∧ ∀ c ∈ m, c.2 ≠ unlistedByte := by
  simp [Memory.wf]

theorem Memory.mem_insertCell (m : Memory) (c e : Host.Cell) : e ∈ Memory.insertCell m c ↔ e = c ∨ e ∈ m := by
  induction m with
  | nil => simp [Memory.insertCell]
  | cons d rest ih =>
    rw [Memory.insertCell]
    split
    · simp
    · simp only [List.mem_cons, ih]; tauto

theorem Memory.pairwise_insertCell (m : Memory) (c : Host.Cell) (h : m.Pairwise (fun x y => x.1 < y.1))
    (hne : ∀ d ∈ m, d.1 ≠ c.1) : (Memory.insertCell m c).Pairwise (fun x y => x.1 < y.1) := by
  induction m with
  | nil => simp [Memory.insertCell]
  | cons d rest ih =>
    obtain ⟨hd, hrest⟩ := List.pairwise_cons.mp h
    rw [Memory.insertCell]
    split
    · next hlt =>
      refine List.pairwise_cons.mpr ⟨?_, h⟩
      intro e he
      rcases List.mem_cons.mp he with rfl | he
      · exact hlt
      · exact Nat.lt_trans hlt (hd e he)
    · next hlt =>
      refine List.pairwise_cons.mpr ⟨?_, ih hrest (fun e he => hne e (by simp [he]))⟩
      intro e he
      rcases (Memory.mem_insertCell rest c e).mp he with rfl | he
      · have := hne d (by simp); omega
      · exact hd e he

/-- A cell of a written memory is the written one or was there before at another offset. -/
theorem Memory.mem_write {m : Memory} {a : Nat} {v : Byte} {c : Host.Cell} (h : c ∈ Memory.write m a v) :
    c = (a, v) ∨ c ∈ m := by
  rw [Memory.write] at h
  split at h
  · exact .inr (List.mem_filter.mp h).1
  · rcases (Memory.mem_insertCell _ _ _).mp h with h | h
    · exact .inl h
    · exact .inr (List.mem_filter.mp h).1

/-- A write keeps the canonical form. -/
theorem Memory.wf_write {m : Memory} (a : Nat) (v : Byte) (h : Memory.wf m = true) :
    Memory.wf (Memory.write m a v) = true := by
  obtain ⟨hs, hv⟩ := (Memory.wf_iff m).mp h
  have hs' : (m.filter (fun c => c.1 ≠ a)).Pairwise (fun x y => x.1 < y.1) := (List.pairwise_map.mp hs).filter _
  refine (Memory.wf_iff _).mpr ⟨List.pairwise_map.mpr ?_, ?_⟩
  · rw [Memory.write]
    split
    · exact hs'
    · exact Memory.pairwise_insertCell _ _ hs' (fun d hd => by simpa using (List.mem_filter.mp hd).2)
  · intro c hc
    rw [Memory.write] at hc
    split at hc
    · exact hv c (List.mem_filter.mp hc).1
    · next hne =>
      rcases (Memory.mem_insertCell _ _ _).mp hc with rfl | hc
      · exact hne
      · exact hv c (List.mem_filter.mp hc).1

/-- A run of writes keeps the canonical form. -/
theorem Memory.wf_writeRun {m : Memory} (a : Nat) (bytes : List Byte) (h : Memory.wf m = true) :
    Memory.wf (Memory.writeRun m a bytes) = true := by
  induction bytes generalizing m a with
  | nil => exact h
  | cons v rest ih => exact ih (a + 1) (Memory.wf_write a v h)

/-- A cell of a memory after a run of writes lies in the run or was there before. -/
theorem Memory.mem_writeRun {m : Memory} {a : Nat} {bytes : List Byte} {c : Host.Cell}
    (h : c ∈ Memory.writeRun m a bytes) : (a ≤ c.1 ∧ c.1 < a + bytes.length) ∨ c ∈ m := by
  induction bytes generalizing m a with
  | nil => exact .inr h
  | cons v rest ih =>
    rcases ih h with ⟨h1, h2⟩ | h
    · exact .inl ⟨by omega, by simp only [List.length_cons]; omega⟩
    · rcases Memory.mem_write h with rfl | h
      · exact .inl ⟨le_refl a, by simp⟩
      · exact .inr h

/-- The empty memory is canonical. -/
theorem Memory.wf_nil : Memory.wf [] = true := by decide

/-- Every memory operation keeps the canonical form; `State.reset` and every `State.resetWith` have it. -/
theorem State.reset_mem_wf : Memory.wf State.reset.mem = true := by decide

theorem State.resetWith_mem_wf (p : Params) : Memory.wf (State.resetWith p).mem = true :=
  Memory.wf_writeRun 0 p.memInit Memory.wf_nil

theorem Memory.write_unlisted_nil (a : Nat) : Memory.write [] a unlistedByte = [] := by
  simp [Memory.write]

/-- Zero bytes written over an empty memory list nothing. -/
theorem Memory.writeRun_unlisted_nil (a n : Nat) : Memory.writeRun [] a (List.replicate n unlistedByte) = [] := by
  induction n generalizing a with
  | zero => rfl
  | succ n ih => rw [List.replicate_succ, Memory.writeRun, Memory.write_unlisted_nil, ih]

/-- `State.reset` is the reset with the default parameters. -/
theorem State.reset_eq_resetWith : State.reset = State.resetWith .default := by
  have h : Memory.writeRun [] 0 Params.default.memInit = [] := Memory.writeRun_unlisted_nil 0 8192
  simp only [State.resetWith, h]
  rfl

end Sys2Proof.Machine
end

