-- ==== Sys2Proof/Laws/State.lean ====
section
/-! SUPPORT. One lemma per field of State per update that the named operations make. -/

namespace Sys2Proof.Machine

open Sys2Proof

section raise
variable (s : State) (k : FaultKind)
@[simp] theorem State.raise_regs : (s.raise k).regs = s.regs := rfl
@[simp] theorem State.raise_pc : (s.raise k).pc = s.pc := rfl
@[simp] theorem State.raise_status : (s.raise k).status = .faulted k := rfl
@[simp] theorem State.raise_mem : (s.raise k).mem = s.mem := rfl
@[simp] theorem State.raise_input : (s.raise k).input = s.input := rfl
@[simp] theorem State.raise_output : (s.raise k).output = s.output := rfl
@[simp] theorem State.raise_err : (s.raise k).err = s.err ++ [⟨k⟩] := rfl
@[simp] theorem State.raise_cfg : (s.raise k).cfg = s.cfg := rfl
@[simp] theorem State.raise_codeWords : (s.raise k).codeWords = s.codeWords := rfl
@[simp] theorem State.raise_numRegs : (s.raise k).numRegs = s.numRegs := rfl
@[simp] theorem State.raise_readReg (r : Byte) : (s.raise k).readReg r = s.readReg r := rfl
@[simp] theorem State.raise_readByte (a : Nat) : (s.raise k).readByte a = s.readByte a := rfl
end raise

section writeReg
variable (s : State) (i : Byte) (v : Word)
@[simp] theorem State.writeReg_pc : (s.writeReg i v).pc = s.pc := rfl
@[simp] theorem State.writeReg_status : (s.writeReg i v).status = s.status := rfl
@[simp] theorem State.writeReg_mem : (s.writeReg i v).mem = s.mem := rfl
@[simp] theorem State.writeReg_input : (s.writeReg i v).input = s.input := rfl
@[simp] theorem State.writeReg_output : (s.writeReg i v).output = s.output := rfl
@[simp] theorem State.writeReg_err : (s.writeReg i v).err = s.err := rfl
@[simp] theorem State.writeReg_cfg : (s.writeReg i v).cfg = s.cfg := rfl
@[simp] theorem State.writeReg_codeWords : (s.writeReg i v).codeWords = s.codeWords := rfl
@[simp] theorem State.writeReg_readByte (a : Nat) : (s.writeReg i v).readByte a = s.readByte a := rfl
end writeReg

section emit
variable (s : State) (bytes : List Byte)
@[simp] theorem State.emit_regs : (s.emit bytes).regs = s.regs := rfl
@[simp] theorem State.emit_pc : (s.emit bytes).pc = s.pc := rfl
@[simp] theorem State.emit_status : (s.emit bytes).status = s.status := rfl
@[simp] theorem State.emit_mem : (s.emit bytes).mem = s.mem := rfl
@[simp] theorem State.emit_input : (s.emit bytes).input = s.input := rfl
@[simp] theorem State.emit_output : (s.emit bytes).output = s.output ++ bytes := rfl
@[simp] theorem State.emit_err : (s.emit bytes).err = s.err := rfl
@[simp] theorem State.emit_cfg : (s.emit bytes).cfg = s.cfg := rfl
@[simp] theorem State.emit_codeWords : (s.emit bytes).codeWords = s.codeWords := rfl
end emit

section advancePc
variable (s : State)
@[simp] theorem State.advancePc_regs : s.advancePc.regs = s.regs := rfl
@[simp] theorem State.advancePc_pc : s.advancePc.pc = s.pc + 1 := rfl
@[simp] theorem State.advancePc_status : s.advancePc.status = s.status := rfl
@[simp] theorem State.advancePc_mem : s.advancePc.mem = s.mem := rfl
@[simp] theorem State.advancePc_input : s.advancePc.input = s.input := rfl
@[simp] theorem State.advancePc_output : s.advancePc.output = s.output := rfl
@[simp] theorem State.advancePc_err : s.advancePc.err = s.err := rfl
@[simp] theorem State.advancePc_cfg : s.advancePc.cfg = s.cfg := rfl
@[simp] theorem State.advancePc_codeWords : s.advancePc.codeWords = s.codeWords := rfl
@[simp] theorem State.advancePc_numRegs : s.advancePc.numRegs = s.numRegs := rfl
@[simp] theorem State.advancePc_readReg (r : Byte) : s.advancePc.readReg r = s.readReg r := rfl
@[simp] theorem State.advancePc_readByte (a : Nat) : s.advancePc.readByte a = s.readByte a := rfl
end advancePc

@[simp] theorem State.numRegs_writeReg (s : State) (i : Byte) (v : Word) : (s.writeReg i v).numRegs = s.numRegs := by
  simp [State.numRegs, State.writeReg]

/-- A register written and read back holds the value (R11). -/
theorem State.readReg_writeReg_self {s : State} {i : Byte} (v : Word) (h : i.toNat < s.numRegs) :
    (s.writeReg i v).readReg i = v := by
  have h' : i.toNat < s.regs.length := h
  simp [State.readReg, State.writeReg, List.getElem?_eq_getElem h']

/-- Registers are independent storage (R13): a write leaves every other register's value. -/
theorem State.readReg_writeReg_ne (s : State) {i r : Byte} (v : Word) (h : r ≠ i) :
    (s.writeReg i v).readReg r = s.readReg r := by
  have hne : i.toNat ≠ r.toNat := fun e => h (BitVec.eq_of_toNat_eq e.symm)
  simp only [State.readReg, State.writeReg, List.getElem?_modify, if_neg hne]
  cases s.regs[r.toNat]? <;> rfl

/-- No write touches a tag (R12). -/
theorem State.tags_writeReg (s : State) (i : Byte) (v : Word) :
    (s.writeReg i v).regs.map Reg.tag = s.regs.map Reg.tag := by
  apply List.ext_getElem?
  intro n
  simp only [State.writeReg, List.getElem?_map, List.getElem?_modify]
  cases s.regs[n]? with
  | none => rfl
  | some r => by_cases hn : i.toNat = n <;> simp [hn]

end Sys2Proof.Machine
end

