-- ==== Sys2Proof/Laws/Ops.lean ====
section
/-! SUPPORT. For each shared operation, what it can do: the lemmas later proofs cite instead of unfolding it. -/

namespace Sys2Proof.Machine

open Sys2Proof

/-! ## Operand checks -/

/-- No field is bad exactly when every register operand is below NUM_REGS (R58). -/
theorem State.badRegister_eq_none_iff {s : State} {fields : List (OperandField × Byte)} :
    s.badRegister fields = none ↔ ∀ p ∈ fields, p.2.toNat < s.numRegs := by
  induction fields with
  | nil => simp [State.badRegister]
  | cons p rest ih =>
    rw [State.badRegister]
    split
    · next h => simp [h]
    · next h => simp [ih, Nat.lt_of_not_le h]

/-- The first bad field is the one reported (R58, R78). -/
theorem State.badRegister_eq_some {s : State} {before after : List (OperandField × Byte)} {p : OperandField × Byte}
    (hb : ∀ q ∈ before, q.2.toNat < s.numRegs) (hp : s.numRegs ≤ p.2.toNat) :
    s.badRegister (before ++ p :: after) = some p := by
  induction before with
  | nil => simp [State.badRegister, hp]
  | cons q rest ih =>
    have hq : ¬ s.numRegs ≤ q.2.toNat := Nat.not_le.mpr (hb q (by simp))
    rw [List.cons_append, State.badRegister, if_neg hq]
    exact ih (fun r hr => hb r (by simp [hr]))

/-- What a reported bad field is. -/
theorem State.badRegister_some {s : State} {fields : List (OperandField × Byte)} {p : OperandField × Byte}
    (h : s.badRegister fields = some p) : p ∈ fields ∧ s.numRegs ≤ p.2.toNat := by
  induction fields with
  | nil => simp [State.badRegister] at h
  | cons q rest ih =>
    rw [State.badRegister] at h
    split at h
    · next hq => cases h; exact ⟨by simp, hq⟩
    · exact ⟨by simp [(ih h).1], (ih h).2⟩

/-- With every register operand in range the handler goes on. -/
theorem State.withRegisters_of_valid {s : State} {fields : List (OperandField × Byte)} (handler : Exec)
    (h : ∀ p ∈ fields, p.2.toNat < s.numRegs) : s.withRegisters fields handler = handler := by
  simp [State.withRegisters, State.badRegister_eq_none_iff.mpr h]

/-- The register check either faults, changing nothing else, or the handler decides. -/
theorem State.withRegisters_cases {s t : State} {fields : List (OperandField × Byte)} {handler : Exec}
    (h : s.withRegisters fields handler = .next t) :
    (∃ p ∈ fields, s.numRegs ≤ p.2.toNat ∧ t = s.raise (.invalidRegisterIndex p.1 p.2)) ∨
    ((∀ p ∈ fields, p.2.toNat < s.numRegs) ∧ handler = .next t) := by
  rw [State.withRegisters] at h
  split at h
  · next p hp =>
    obtain ⟨hm, hle⟩ := State.badRegister_some hp
    cases h
    exact .inl ⟨p, hm, hle, rfl⟩
  · next hp => exact .inr ⟨State.badRegister_eq_none_iff.mp hp, h⟩

theorem State.withR_of_valid {s : State} {b1 : Byte} (handler : Exec) (h1 : b1.toNat < s.numRegs) :
    s.withR b1 handler = handler :=
  State.withRegisters_of_valid handler (by simpa using h1)

theorem State.withRR_of_valid {s : State} {b1 b2 : Byte} (handler : Exec) (h1 : b1.toNat < s.numRegs)
    (h2 : b2.toNat < s.numRegs) : s.withRR b1 b2 handler = handler :=
  State.withRegisters_of_valid handler (by simp [h1, h2])

theorem State.withRRR_of_valid {s : State} {b1 b2 b3 : Byte} (handler : Exec) (h1 : b1.toNat < s.numRegs)
    (h2 : b2.toNat < s.numRegs) (h3 : b3.toNat < s.numRegs) : s.withRRR b1 b2 b3 handler = handler :=
  State.withRegisters_of_valid handler (by simp [h1, h2, h3])

/-! ## Memory accessors -/

theorem State.admits_iff {s : State} {a n : Nat} : s.admits a n = true ↔ a + n ≤ s.cfg.memSize := by
  simp [State.admits]

theorem State.readMemoryByte_of_lt {s : State} {a : Word} (h : a.toNat < s.cfg.memSize) :
    s.readMemoryByte a = .ok (s.readByte a.toNat) := by
  have h' : a.toNat + 1 ≤ s.cfg.memSize := h
  simp [State.readMemoryByte, State.admits, h']

theorem State.readMemoryByte_of_le {s : State} {a : Word} (h : s.cfg.memSize ≤ a.toNat) :
    s.readMemoryByte a = .error (.outOfBoundsMemoryAccess a.toNat 1) := by
  have h' : ¬ a.toNat + 1 ≤ s.cfg.memSize := by omega
  simp [State.readMemoryByte, State.admits, h']

theorem State.writeMemoryByte_of_lt {s : State} {a : Word} (v : Byte) (h : a.toNat < s.cfg.memSize) :
    s.writeMemoryByte a v = .ok { s with mem := Memory.write s.mem a.toNat v } := by
  have h' : a.toNat + 1 ≤ s.cfg.memSize := h
  simp [State.writeMemoryByte, State.admits, h']

theorem State.writeMemoryByte_of_le {s : State} {a : Word} (v : Byte) (h : s.cfg.memSize ≤ a.toNat) :
    s.writeMemoryByte a v = .error (.outOfBoundsMemoryAccess a.toNat 1) := by
  have h' : ¬ a.toNat + 1 ≤ s.cfg.memSize := by omega
  simp [State.writeMemoryByte, State.admits, h']

/-! ## The loops of `puts` and `gets` -/

/-- The scan stops at the first zero byte below its bound, with the bytes before it (R106). -/
theorem Memory.scanString_of_zero {m : Memory} {i n fuel : Nat} (hn : n < fuel)
    (hnz : ∀ k < n, Memory.read m (i + k) ≠ 0) (hz : Memory.read m (i + n) = 0) :
    Memory.scanString m fuel i = ((List.range n).map (fun k => Memory.read m (i + k)), true) := by
  induction n generalizing i fuel with
  | zero =>
    obtain ⟨f, rfl⟩ : ∃ f, fuel = f + 1 := ⟨fuel - 1, by omega⟩
    have hz' : Memory.read m i = 0 := hz
    simp [Memory.scanString, hz']
  | succ n ih =>
    obtain ⟨f, rfl⟩ : ∃ f, fuel = f + 1 := ⟨fuel - 1, by omega⟩
    have h0 : Memory.read m i ≠ 0 := hnz 0 (by omega)
    have hrest := ih (i := i + 1) (fuel := f) (by omega)
      (fun k hk => by have := hnz (k + 1) (by omega); rwa [show i + (k + 1) = i + 1 + k by omega] at this)
      (by rwa [show i + 1 + n = i + (n + 1) by omega])
    rw [Memory.scanString, if_neg h0, hrest, List.range_succ_eq_map]
    simp [Function.comp_def, Nat.add_assoc, Nat.add_comm 1]

/-- Without a zero byte below its bound the scan takes every byte up to the bound (R106, R125). -/
theorem Memory.scanString_of_nonzero {m : Memory} {i fuel : Nat} (hnz : ∀ k < fuel, Memory.read m (i + k) ≠ 0) :
    Memory.scanString m fuel i = ((List.range fuel).map (fun k => Memory.read m (i + k)), false) := by
  induction fuel generalizing i with
  | zero => rfl
  | succ f ih =>
    have h0 : Memory.read m i ≠ 0 := hnz 0 (by omega)
    have hrest := ih (i := i + 1)
      (fun k hk => by have := hnz (k + 1) (by omega); rwa [show i + (k + 1) = i + 1 + k by omega] at this)
    rw [Memory.scanString, if_neg h0, hrest, List.range_succ_eq_map]
    simp [Function.comp_def, Nat.add_assoc, Nat.add_comm 1]

/-- `puts` once its scan is known (R106). -/
theorem State.putString_of_scan {s : State} {a : Nat} {bytes : List Byte} {ended : Bool}
    (h : Memory.scanString s.mem (s.cfg.memSize - a) a = (bytes, ended)) :
    s.putString a =
      if ended then .next (s.emit bytes) else .next ((s.emit bytes).raise (.stringOverflow a (max a s.cfg.memSize))) := by
  simp [State.putString, h]

/-- `gets` where the token and its terminator fit (R107). -/
theorem State.getToken_of_fits {s : State} {a : Nat} (h : a + s.token.length + 1 ≤ s.cfg.memSize) :
    s.getToken a = .next { s with input := s.inputAfterToken, mem := Memory.writeRun s.mem a (s.token ++ [0]) } := by
  have h' : a + (s.token.length + 1) ≤ s.cfg.memSize := by omega
  simp [State.getToken, State.admits, h']

/-- `gets` where they do not fit (R107, R125). -/
theorem State.getToken_of_overflow {s : State} {a : Nat} (h : s.cfg.memSize < a + s.token.length + 1) :
    s.getToken a =
      .next (State.raise { s with input := s.inputAfterToken } (.stringOverflow a (a + s.token.length + 1))) := by
  have h' : ¬ a + (s.token.length + 1) ≤ s.cfg.memSize := by omega
  simp [State.getToken, State.admits, h']

/-- What `puts` does to the state: it emits some bytes and then, if it does not end, faults (R106, R125). -/
theorem State.putString_cases {s t : State} {a : Nat} (h : s.putString a = .next t) :
    ∃ bytes, t = s.emit bytes ∨ t = (s.emit bytes).raise (.stringOverflow a (max a s.cfg.memSize)) := by
  refine ⟨(Memory.scanString s.mem (s.cfg.memSize - a) a).1, ?_⟩
  simp only [State.putString] at h
  split at h <;> cases h
  · exact .inl rfl
  · exact .inr rfl

/-- IN is the skipped whitespace, the token and the rest, in this order (R107). -/
theorem State.input_eq (s : State) :
    s.input = s.input.takeWhile s.isWs ++ (s.token ++ s.inputAfterToken) := by
  rw [State.token, State.inputAfterToken, List.takeWhile_append_dropWhile, State.inputSkipped,
    List.takeWhile_append_dropWhile]

/-- A token is found where IN is whitespace, then non-whitespace bytes, then the end of IN or a whitespace byte after a
token that is not empty (R107, R109). -/
theorem State.token_of_split {s : State} {lead tok rest : List Byte} (hi : s.input = lead ++ (tok ++ rest))
    (hl : ∀ b ∈ lead, s.isWs b = true) (ht : ∀ b ∈ tok, s.isWs b = false)
    (hr : rest = [] ∨ (tok ≠ [] ∧ ∃ b r, rest = b :: r ∧ s.isWs b = true)) :
    s.token = tok ∧ s.inputAfterToken = rest := by
  have hskip : s.inputSkipped = tok ++ rest := by
    rw [State.inputSkipped, hi, List.dropWhile_append_of_pos (fun b hb => hl b hb)]
    cases tok with
    | nil => rcases hr with rfl | ⟨h, _⟩
             · rfl
             · exact absurd rfl h
    | cons b r => simp [ht b (by simp)]
  have ht' : ∀ b ∈ tok, (!s.isWs b) = true := fun b hb => by simp [ht b hb]
  have hend : rest.takeWhile (fun b => !s.isWs b) = [] ∧ rest.dropWhile (fun b => !s.isWs b) = rest := by
    rcases hr with rfl | ⟨_, b, r, rfl, hb⟩
    · simp
    · simp [hb]
  constructor
  · rw [State.token, hskip, List.takeWhile_append_of_pos ht', hend.1, List.append_nil]
  · rw [State.inputAfterToken, hskip, List.dropWhile_append_of_pos ht', hend.2]

/-- What `gets` does to the state: it consumes the token, and stores it with a zero byte or faults (R107, R125). -/
theorem State.getToken_cases {s t : State} {a : Nat} (h : s.getToken a = .next t) :
    (a + s.token.length + 1 ≤ s.cfg.memSize ∧
      t = { s with input := s.inputAfterToken, mem := Memory.writeRun s.mem a (s.token ++ [0]) }) ∨
    (s.cfg.memSize < a + s.token.length + 1 ∧
      t = ({ s with input := s.inputAfterToken }).raise (.stringOverflow a (a + s.token.length + 1))) := by
  simp only [State.getToken] at h
  split at h
  · next ha =>
    have ha := State.admits_iff.mp ha
    cases h
    exact .inl ⟨by omega, rfl⟩
  · next ha =>
    have ha := mt State.admits_iff.mpr ha
    cases h
    exact .inr ⟨by omega, rfl⟩

/-! ## Jumps and the closing check -/

theorem State.jumpTo_cases {s t : State} {target : Nat} (h : s.jumpTo target = .next t) :
    (target < s.codeWords ∧ t = { s with pc := target }) ∨
    (s.codeWords ≤ target ∧ t = s.raise (.invalidJumpTarget target)) := by
  rw [State.jumpTo] at h
  split at h <;> cases h
  · next ht => exact .inl ⟨ht, rfl⟩
  · next ht => exact .inr ⟨Nat.le_of_not_lt ht, rfl⟩

/-- The closing check changes nothing, or takes OutOfBoundsProgramCounter while Running outside the code (R74). -/
theorem State.checkPc_cases (s : State) :
    (s.status = .running ∧ s.codeWords ≤ s.pc ∧ s.checkPc = s.raise (.outOfBoundsProgramCounter s.pc)) ∨
    ((s.status = .running → s.pc < s.codeWords) ∧ s.checkPc = s) := by
  rw [State.checkPc]
  split
  · next h => exact .inl ⟨h.1, h.2, rfl⟩
  · next h => exact .inr ⟨fun hr => Nat.lt_of_not_le fun hle => h ⟨hr, hle⟩, rfl⟩

end Sys2Proof.Machine
end

