-- ==== Sys2Proof/Laws/Exec.lean ====
section
/-! SUPPORT. What an instruction can do, said once (`exec_effect`), and what a step can do, said once (`step_cases`). -/

namespace Sys2Proof.Machine

open Sys2Proof

/-- Everything a handler can do to a state, instruction by instruction (files 41 to 45 of the spec). -/
inductive Effect (i : Instr) (s : State) : State → Prop where
  /-- A fault raised before any effect: an index, an address or a target that fails its check. -/
  | trap (k : FaultKind) (hk : ∀ p, k ≠ .outOfBoundsProgramCounter p) (hs : ∀ a b, k ≠ .stringOverflow a b) :
      Effect i s (s.raise k)
  | halt (hi : i = .halt) : Effect i s { s with status := .halted }
  | register (d : Byte) (v : Word) (hi : i.dest = some d) (hd : d.toNat < s.numRegs) : Effect i s (s.writeReg d v)
  | store (a r : Byte) (hi : i = .store a r) (ha : (s.readReg a).toNat < s.cfg.memSize) :
      Effect i s { s with mem := Memory.write s.mem (s.readReg a).toNat (lowByte (s.readReg r)) }
  | jump (target : Nat) (hi : i.mnemonic = .jump ∨ i.mnemonic = .ite) (ht : target < s.codeWords) :
      Effect i s { s with pc := target }
  | puts (r : Byte) (bytes : List Byte) (hi : i = .puts r) : Effect i s (s.emit bytes)
  | putsOverflow (r : Byte) (bytes : List Byte) (a b : Nat) (hi : i = .puts r) :
      Effect i s ((s.emit bytes).raise (.stringOverflow a b))
  | gets (r : Byte) (hi : i = .gets r) (ha : (s.readReg r).toNat + s.token.length + 1 ≤ s.cfg.memSize) :
      Effect i s { s with input := s.inputAfterToken,
                          mem := Memory.writeRun s.mem (s.readReg r).toNat (s.token ++ [0]) }
  | getsOverflow (r : Byte) (a b : Nat) (hi : i = .gets r) :
      Effect i s (({ s with input := s.inputAfterToken }).raise (.stringOverflow a b))

/-- A result register written after its check (R96 and the register instructions of file 42). -/
theorem registerOp_effect {i : Instr} {s t : State} {f : Word → Word → Word} {d a b : Byte} (hi : i.dest = some d)
    (h : s.registerOp f d a b = .next t) : Effect i s t := by
  rcases State.withRegisters_cases h with ⟨p, _, _, rfl⟩ | ⟨hv, h⟩
  · exact .trap _ (by simp) (by simp)
  · cases h
    exact .register d _ hi (hv (.b1, d) (by simp))

theorem execLoad_effect {s t : State} {d a : Byte} (h : execLoad d a s = .next t) : Effect (.load d a) s t := by
  rcases State.withRegisters_cases h with ⟨p, _, _, rfl⟩ | ⟨hv, h⟩
  · exact .trap _ (by simp) (by simp)
  · by_cases ha : (s.readReg a).toNat < s.cfg.memSize
    · rw [State.readMemoryByte_of_lt ha] at h
      cases h
      exact .register d _ rfl (hv (.b1, d) (by simp))
    · rw [State.readMemoryByte_of_le (Nat.le_of_not_lt ha)] at h
      cases h
      exact .trap _ (by simp) (by simp)

theorem execStore_effect {s t : State} {a r : Byte} (h : execStore a r s = .next t) : Effect (.store a r) s t := by
  rcases State.withRegisters_cases h with ⟨p, _, _, rfl⟩ | ⟨_, h⟩
  · exact .trap _ (by simp) (by simp)
  · by_cases ha : (s.readReg a).toNat < s.cfg.memSize
    · rw [State.writeMemoryByte_of_lt _ ha] at h
      cases h
      exact .store a r rfl ha
    · rw [State.writeMemoryByte_of_le _ (Nat.le_of_not_lt ha)] at h
      cases h
      exact .trap _ (by simp) (by simp)

theorem jumpTo_effect {i : Instr} {s t : State} {target : Nat} (hi : i.mnemonic = .jump ∨ i.mnemonic = .ite)
    (h : s.jumpTo target = .next t) : Effect i s t := by
  rcases State.jumpTo_cases h with ⟨ht, rfl⟩ | ⟨_, rfl⟩
  · exact .jump target hi ht
  · exact .trap _ (by simp) (by simp)

/-- What every instruction can do when it answers a next state. -/
theorem exec_effect {i : Instr} {s t : State} (h : exec i s = .next t) : Effect i s t := by
  cases i with
  | halt => cases h; exact .halt rfl
  | load d a => exact execLoad_effect h
  | store a r => exact execStore_effect h
  | move d r =>
    rcases State.withRegisters_cases h with ⟨p, _, _, rfl⟩ | ⟨hv, h⟩
    · exact .trap _ (by simp) (by simp)
    · cases h; exact .register d _ rfl (hv (.b1, d) (by simp))
  | puti d v =>
    rcases State.withRegisters_cases h with ⟨p, _, _, rfl⟩ | ⟨hv, h⟩
    · exact .trap _ (by simp) (by simp)
    · cases h; exact .register d _ rfl (hv (.b1, d) (by simp))
  | add d a b => exact registerOp_effect rfl h
  | sub d a b => exact registerOp_effect rfl h
  | gt d a b => exact registerOp_effect (f := fun va vb => boolWord (BitVec.ult vb va)) rfl h
  | ge d a b => exact registerOp_effect (f := fun va vb => boolWord (BitVec.ule vb va)) rfl h
  | eq d a b => exact registerOp_effect (f := fun va vb => boolWord (va == vb)) rfl h
  | ite c x y =>
    rcases State.withRegisters_cases h with ⟨p, _, _, rfl⟩ | ⟨_, h⟩
    · exact .trap _ (by simp) (by simp)
    · exact jumpTo_effect (.inr rfl) h
  | jump x => exact jumpTo_effect (.inl rfl) h
  | puts r =>
    rcases State.withRegisters_cases h with ⟨p, _, _, rfl⟩ | ⟨_, h⟩
    · exact .trap _ (by simp) (by simp)
    · obtain ⟨bytes, rfl | rfl⟩ := State.putString_cases h
      · exact .puts r bytes rfl
      · exact .putsOverflow r bytes _ _ rfl
  | gets r =>
    rcases State.withRegisters_cases h with ⟨p, _, _, rfl⟩ | ⟨_, h⟩
    · exact .trap _ (by simp) (by simp)
    · rcases State.getToken_cases h with ⟨ha, rfl⟩ | ⟨_, rfl⟩
      · exact .gets r rfl ha
      · exact .getsOverflow r _ _ rfl

/-- What a step can do when it answers a next state: the check before the first fetch (R77), an unset opcode slot (R124),
or an instruction and the closing check (R71, R74). -/
theorem step_cases {s t : State} (h : step s = .next t) :
    s.status = .running ∧ s.cfg.codeLen % 4 = 0 ∧
    ((s.codeWords ≤ s.pc ∧ t = s.raise (.outOfBoundsProgramCounter s.pc)) ∨
     (s.pc < s.codeWords ∧ decode s.cfg.opc s.fetchWord = .error (.invalidOpcode (fieldB0 s.fetchWord)) ∧
       t = s.advancePc.raise (.invalidOpcode (fieldB0 s.fetchWord))) ∨
     (s.pc < s.codeWords ∧ ∃ i u, decode s.cfg.opc s.fetchWord = .ok i ∧ exec i s.advancePc = .next u ∧
       t = u.checkPc)) := by
  unfold step at h
  split at h
  · cases h
  · cases h
  · next hr =>
    refine ⟨hr, ?_⟩
    split at h
    · cases h
    · next hc =>
      refine ⟨not_not.mp hc, ?_⟩
      split at h
      · next hp => cases h; exact .inl ⟨hp, rfl⟩
      · next hp =>
        have hp := Nat.lt_of_not_le hp
        rw [State.runWord] at h
        rcases decode_cases s.cfg.opc s.fetchWord with ⟨m, _, hd⟩ | ⟨_, hd⟩
        · rw [hd] at h
          simp only at h
          cases he : exec (m.instr (fieldB1 s.fetchWord) (fieldB2 s.fetchWord) (fieldB3 s.fetchWord)) s.advancePc with
          | next u =>
            rw [he] at h
            cases h
            exact .inr (.inr ⟨hp, _, u, hd, he, rfl⟩)
          | fault f => rw [he] at h; cases h
          | refused r => rw [he] at h; cases h
        · rw [hd] at h
          cases h
          exact .inr (.inl ⟨hp, hd, rfl⟩)

end Sys2Proof.Machine
end

