-- ==== Sys2Proof/Laws/PerInstr.lean ====
section
/-!
SUPPORT. Per-instruction lemmas over the syntax. Family `EncodedFields`: an instruction's encoding holds its opcode byte in
B0 and its operand bytes in B1, B2, B3, and every byte its format does not use is 0 (R51, R53, R59).
-/

namespace Sys2Proof.Laws.EncodedFields

open Sys2Proof

/-- The encoding of an instruction field by field, under every OPC. -/
def Statement (i : Instr) : Prop :=
  ∀ o : Opc, fieldB0 (encode o i) = o.byteOf i.mnemonic ∧
    ∀ f : OperandField, operandField (encode o i) f = i.operandByte f ∧
      (i.mnemonic.format.operandUse f = .unused → operandField (encode o i) f = 0)

/-- A byte that an instruction's format does not use is 0 among its operand bytes (R59). -/
theorem operandByte_of_unused (i : Instr) (f : OperandField) (h : i.mnemonic.format.operandUse f = .unused) :
    i.operandByte f = 0 := by
  cases i <;> cases f <;> first | rfl | cases h

/-- The fields of any encoding. -/
theorem of_instr (i : Instr) : Statement i := by
  intro o
  have hf : ∀ f, operandField (encode o i) f = i.operandByte f := by
    intro f; cases f <;> simp [operandField, encode]
  exact ⟨by simp [encode], fun f => ⟨hf f, fun hu => (hf f).trans (operandByte_of_unused i f hu)⟩⟩

theorem halt : Statement .halt := of_instr _
theorem load (d a : Byte) : Statement (.load d a) := of_instr _
theorem store (a r : Byte) : Statement (.store a r) := of_instr _
theorem move (d r : Byte) : Statement (.move d r) := of_instr _
theorem puti (d v : Byte) : Statement (.puti d v) := of_instr _
theorem add (d a b : Byte) : Statement (.add d a b) := of_instr _
theorem sub (d a b : Byte) : Statement (.sub d a b) := of_instr _
theorem gt (d a b : Byte) : Statement (.gt d a b) := of_instr _
theorem ge (d a b : Byte) : Statement (.ge d a b) := of_instr _
theorem eq (d a b : Byte) : Statement (.eq d a b) := of_instr _
theorem ite (c x y : Byte) : Statement (.ite c x y) := of_instr _
theorem jump (x : Byte) : Statement (.jump x) := of_instr _
theorem puts (a : Byte) : Statement (.puts a) := of_instr _
theorem gets (a : Byte) : Statement (.gets a) := of_instr _

end Sys2Proof.Laws.EncodedFields
end

