-- ==== Sys2Proof/Tests/Slice0.lean ====
section
/-!
SUPPORT. The model's own tests. Expected results are the spec's: its worked encodings (30_encoding.md R62), its decode
table and its vectors (95_test_vectors.md, sections named at each test); none is the model's own answer. Then, for each
statement with hypotheses, a concrete state and operands that meet them (`witness_<statement>`).
-/

namespace Sys2Proof.Tests

open Sys2Proof Sys2Proof.Machine

/-- The default core with some register values (the rest 0), memory, input, code bytes and `pc`. -/
def at_ (vals : List Word) (mem : Memory := []) (input code : List Byte := []) (pc : Nat := 0) : State :=
  { State.reset with
    regs := vals.map (fun v => ⟨0, v⟩) ++ List.replicate (16 - vals.length) ⟨0, 0⟩
    mem := mem
    input := input
    pc := pc
    cfg := { State.reset.cfg with code := code } }

/-- `n` words of `halt`: a code buffer of CODE_WORDS = n under the default OPC. -/
def halts (n : Nat) : List Byte := List.replicate (4 * n) 0

/-- The next state of an outcome, if it has one. -/
def next? : Exec → Option State
  | .next t => some t
  | .fault _ => none
  | .refused _ => none

/-- The next state of an outcome, or a given state where it has none. -/
def nextOr (s : State) : Exec → State
  | .next t => t
  | .fault _ => s
  | .refused _ => s

/-- One register after an instruction. -/
def regAfter (i : Instr) (s : State) (r : Byte) : Option Word := (next? (exec i s)).map (·.readReg r)

/-- The status after an instruction. -/
def statusAfter (i : Instr) (s : State) : Option Status := (next? (exec i s)).map (·.status)

/-- Some bytes of memory after an instruction. -/
def bytesAfter (i : Instr) (s : State) (a n : Nat) : Option (List Byte) := (next? (exec i s)).map (·.bytesFrom a n)

/-! ## WellFormed: an ill-formed term for each check, refused -/

/-- A colliding OPC (R5: 14 distinct bytes). -/
def badOpc : Opc := { Opc.default with gets := 0x10 }

theorem test_wf_opc : Opc.default.wf = true ∧ badOpc.wf = false := by decide

theorem test_wf_config : State.reset.cfg.wf = true ∧
    Config.wf { State.reset.cfg with memSize := 0 } = false ∧
    Config.wf { State.reset.cfg with opc := badOpc } = false ∧
    Config.wf { State.reset.cfg with ws := [0x20, 0x00] } = false ∧
    Config.wf { State.reset.cfg with code := [0, 0, 0] } = false := by decide

/-- Parameters of a small core with 4 bytes of memory. -/
def small : Params where
  memSize := 4
  opc := .default
  ws := defaultWs
  code := halts 1
  numRegs := 16
  memInit := [1, 0, 2, 0]
  input := [0x61]

theorem test_wf_params : small.wf = true ∧
    Params.wf { small with numRegs := 15 } = false ∧
    Params.wf { small with numRegs := 257 } = false ∧
    Params.wf { small with memInit := [1] } = false ∧
    Params.wf { small with memSize := 0, memInit := [] } = false := by decide

theorem test_wf_instr_register : Instr.wf 16 10 (.add 0 1 15) = true ∧ Instr.wf 16 10 (.add 0 1 16) = false ∧
    Instr.wf 16 10 (.move 0 200) = false ∧ Instr.wf 16 10 (.gets 16) = false := by decide

theorem test_wf_instr_target : Instr.wf 16 10 (.jump 9) = true ∧ Instr.wf 16 10 (.jump 10) = false ∧
    Instr.wf 16 10 (.ite 4 9 200) = false := by decide

theorem test_wf_memory : Memory.wf [(0, 1), (2, 3)] = true ∧ Memory.wf [(2, 3), (0, 1)] = false ∧
    Memory.wf [(0, 1), (0, 2)] = false ∧ Memory.wf [(0, 0)] = false := by decide

/-! ## Decode: words written out from the encodings (R62, and 95_test_vectors.md 2.1) -/

theorem test_decode_halt : decodeBytes .default 0x00 0x00 0x00 0x00 = .ok .halt := by decide
theorem test_decode_halt_ignores_operands : decode .default 0xCCBBAA00 = .ok .halt := by decide
theorem test_decode_load : decodeBytes .default 0x10 0x00 0x01 0x00 = .ok (.load 0 1) := by decide
theorem test_decode_store : decodeBytes .default 0x20 0x01 0x00 0x00 = .ok (.store 1 0) := by decide
theorem test_decode_move : decodeBytes .default 0x30 0x04 0x03 0x00 = .ok (.move 4 3) := by decide
theorem test_decode_puti : decodeBytes .default 0x40 0x00 0x05 0xFF = .ok (.puti 0 5) := by decide
theorem test_decode_add : decodeBytes .default 0x50 0x02 0x00 0x01 = .ok (.add 2 0 1) := by decide
theorem test_decode_sub : decodeBytes .default 0x60 0x01 0x02 0x01 = .ok (.sub 1 2 1) := by decide
theorem test_decode_gt : decodeBytes .default 0x70 0x04 0x02 0x01 = .ok (.gt 4 2 1) := by decide
theorem test_decode_ge : decodeBytes .default 0x80 0x05 0x00 0x02 = .ok (.ge 5 0 2) := by decide
theorem test_decode_eq : decodeBytes .default 0x90 0x06 0x03 0x00 = .ok (.eq 6 3 0) := by decide
theorem test_decode_ite : decode .default 0x060904A0 = .ok (.ite 4 9 6) := by decide
theorem test_decode_jump : decode .default 0x000004B0 = .ok (.jump 4) := by decide
theorem test_decode_puts : decode .default 0x000001C0 = .ok (.puts 1) := by decide
theorem test_decode_gets : decodeBytes .default 0xD0 0x00 0x00 0x00 = .ok (.gets 0) := by decide
theorem test_decode_low_byte_selects : decode .default 0x40000000 = .ok .halt := by decide
theorem test_decode_illegal : decode .default 0x00000001 = .error (.invalidOpcode 0x01) ∧
    decode .default 0x000000FF = .error (.invalidOpcode 0xFF) ∧
    decode .default 0x000000E0 = .error (.invalidOpcode 0xE0) := by decide

/-! ## One instruction each (95_test_vectors.md 2.2 to 2.6) -/

theorem test_halt : step (at_ [] [] [] (halts 4) 3) = .next { at_ [] [] [] (halts 4) 4 with status := .halted } := rfl

theorem test_load_zero_extends : regAfter (.load 1 1) (at_ [0, 5] [(5, 0x80)]) 1 = some 0x00000080 := by decide
theorem test_load_boundary : regAfter (.load 0 1) (at_ [9, 8191] [(8191, 7)]) 0 = some 7 ∧
    statusAfter (.load 0 1) (at_ [9, 8192]) = some (.faulted (.outOfBoundsMemoryAccess 8192 1)) ∧
    regAfter (.load 0 1) (at_ [9, 8192]) 0 = some 9 := by decide

theorem test_store_low_byte : bytesAfter (.store 1 0) (at_ [0x12345678, 10] [(9, 1), (11, 2)]) 9 3 = some [1, 0x78, 2] := by
  decide
theorem test_store_same_register : bytesAfter (.store 1 1) (at_ [0, 0x105]) 0x105 1 = some [0x05] ∧
    statusAfter (.store 1 0) (at_ [1, 8192]) = some (.faulted (.outOfBoundsMemoryAccess 8192 1)) := by decide

theorem test_move : regAfter (.move 4 3) (at_ [0, 0, 0, 0xDEADBEEF]) 4 = some 0xDEADBEEF := by decide
theorem test_move_bad_register : statusAfter (.move 0 200) (at_ []) = some (.faulted (.invalidRegisterIndex .b2 200)) := by
  decide

theorem test_puti : regAfter (.puti 15 255) (at_ []) 15 = some 0x000000FF ∧
    regAfter (.puti 1 200) (at_ []) 1 = some 200 := by decide
theorem test_puti_bad_register : statusAfter (.puti 16 1) (at_ []) = some (.faulted (.invalidRegisterIndex .b1 16)) := by
  decide

theorem test_add_wraps : regAfter (.add 2 0 1) (at_ [0xFFFFFFFF, 0xFFFFFFFF]) 2 = some 0xFFFFFFFE ∧
    regAfter (.add 1 1 1) (at_ [0, 128]) 1 = some 256 := by decide
theorem test_add_first_bad_register :
    statusAfter (.add 16 17 18) (at_ []) = some (.faulted (.invalidRegisterIndex .b1 16)) ∧
    statusAfter (.add 0 1 16) (at_ []) = some (.faulted (.invalidRegisterIndex .b3 16)) := by decide

theorem test_sub_wraps : regAfter (.sub 2 0 1) (at_ [1, 0x80000000]) 2 = some 0x80000001 := by decide
theorem test_sub_destination_is_source : regAfter (.sub 1 2 1) (at_ [0, 3, 10]) 1 = some 7 := by decide

theorem test_gt_unsigned : regAfter (.gt 2 0 1) (at_ [0x80000000, 0x7FFFFFFF]) 2 = some 1 := by decide
theorem test_gt_equal : regAfter (.gt 2 0 1) (at_ [5, 5, 9]) 2 = some 0 := by decide

theorem test_ge_unsigned : regAfter (.ge 2 0 1) (at_ [0x7FFFFFFF, 0x80000000, 9]) 2 = some 0 := by decide
theorem test_ge_equal : regAfter (.ge 2 0 1) (at_ [5, 5]) 2 = some 1 := by decide

theorem test_eq_all_bits : regAfter (.eq 2 0 1) (at_ [0x100, 0, 9]) 2 = some 0 := by decide
theorem test_eq_equal : regAfter (.eq 2 0 1) (at_ [0xFFFFFFFF, 0xFFFFFFFF]) 2 = some 1 := by decide

theorem test_ite_selects :
    (next? (exec (.ite 4 9 200) (at_ [0, 0, 0, 0, 0x100] [] [] (halts 10) 6))).map (·.pc) = some 9 ∧
    (next? (exec (.ite 4 9 6) (at_ [] [] [] (halts 10) 6))).map (·.pc) = some 6 := by decide
theorem test_ite_bad_target :
    (next? (exec (.ite 4 9 200) (at_ [] [] [] (halts 10) 6))).map (fun t => (t.pc, t.status)) =
      some (6, .faulted (.invalidJumpTarget 200)) := by decide

theorem test_jump : (next? (exec (.jump 9) (at_ [] [] [] (halts 10) 6))).map (·.pc) = some 9 := by decide
theorem test_jump_bad_target :
    statusAfter (.jump 10) (at_ [] [] [] (halts 10) 6) = some (.faulted (.invalidJumpTarget 10)) := by decide

theorem test_puts : (next? (exec (.puts 1) (at_ [] [(0, 0x48), (1, 0x69)]))).map (·.output) = some [0x48, 0x69] := by decide
theorem test_puts_overflow :
    (next? (exec (.puts 1) (at_ [0, 8190] [(8190, 0x41), (8191, 0x42)]))).map (fun t => (t.output, t.status)) =
      some ([0x41, 0x42], .faulted (.stringOverflow 8190 8192)) ∧
    statusAfter (.puts 1) (at_ [0, 0xFFFFFFFF]) = some (.faulted (.stringOverflow 0xFFFFFFFF 0xFFFFFFFF)) := by decide

theorem test_gets :
    bytesAfter (.gets 0) (at_ [100] [(102, 9)] [0x20, 0x61, 0x62, 0x20, 0x63]) 100 3 = some [0x61, 0x62, 0] ∧
    (next? (exec (.gets 0) (at_ [100] [] [0x20, 0x61, 0x62, 0x20, 0x63]))).map (·.input) = some [0x20, 0x63] ∧
    bytesAfter (.gets 0) (at_ [100] [(100, 9)] [0x0A, 0x09, 0x20]) 100 1 = some [0] := by decide
theorem test_gets_overflow :
    (next? (exec (.gets 0) (at_ [8189] [(8189, 5)] [0x61, 0x62, 0x63]))).map (fun t => (t.input, t.mem, t.status)) =
      some ([], [(8189, 5)], .faulted (.stringOverflow 8189 8193)) ∧
    bytesAfter (.gets 0) (at_ [8188] [] [0x61, 0x62, 0x63]) 8188 4 = some [0x61, 0x62, 0x63, 0] := by decide

/-! ## The step and its faults (95_test_vectors.md 2.7), and where the host places an instruction -/

theorem test_step_empty_code : (next? (step State.reset)).map (·.status) = some (.faulted (.outOfBoundsProgramCounter 0)) := by
  decide
theorem test_step_falls_off :
    (next? (step (at_ [] [] [] [0x40, 0, 1, 0]))).map (fun t => (t.readReg 0, t.pc, t.status)) =
      some (1, 1, .faulted (.outOfBoundsProgramCounter 1)) := by decide
theorem test_step_bad_jump : (next? (step (at_ [] [] [] [0xB0, 1, 0, 0]))).map (·.status) =
    some (.faulted (.invalidJumpTarget 1)) := by decide
theorem test_step_opcode_before_operands :
    (next? (step (at_ [] [] [] ([0xFF, 0x10, 0, 0] ++ halts 1)))).map (fun t => (t.pc, t.status, t.err)) =
      some (1, .faulted (.invalidOpcode 0xFF), [⟨.invalidOpcode 0xFF⟩]) := by decide
theorem test_step_register_before_memory :
    (next? (step (at_ [0, 9000] [] [] ([0x10, 0x10, 1, 0] ++ halts 1)))).map (·.status) =
      some (.faulted (.invalidRegisterIndex .b1 16)) := by decide
theorem test_fetch_placed_word :
    (next? (step (State.reset.withFetchWord 32 0x00050040))).map (fun t => (t.readReg 0, t.pc, t.status)) =
      some (5, 1, .running) := by decide
theorem test_read_word_little_endian :
    (at_ [] [(0, 1), (1, 2), (2, 3), (3, 4)]).readMemoryWord 0 = .ok 0x04030201 := by decide

/-! ## Witnesses: the hypotheses of each statement are met -/

theorem witness_DecodeOfEncodeIsTheInstruction :
    Opc.default.wf = true ∧ encodeBytes .default (.add 2 0 255) = [0x50, 2, 0, 255] := by decide

theorem witness_EncodeOfDecodeKeepsUsedBytes : decode .default 0xFF050040 = .ok (.puti 0 5) := by decide

theorem witness_UnusedBytesAreIgnored :
    Opc.default.wf = true ∧ fieldB0 0xFF050040 = Opc.default.byteOf .puti ∧ fieldB0 0x00050040 = fieldB0 0xFF050040 ∧
      fieldB1 0x00050040 = fieldB1 0xFF050040 ∧ fieldB2 0x00050040 = fieldB2 0xFF050040 := by decide

theorem witness_OpcodesWithoutHandlerAreRejected : Opc.default.wf = true ∧ Opc.default.lookup 0xE0 = none := by decide

/-- A core at its last word, `puti r0, 1`. -/
def atLastWord : State := at_ [] [] [] (halts 1 ++ [0x40, 0, 1, 0]) 1

theorem witness_StepRunsTheDecodedInstruction :
    atLastWord.CanFetch ∧ atLastWord.cfg.code[4]? = some 0x40 ∧ atLastWord.cfg.code[5]? = some 0 ∧
      atLastWord.cfg.code[6]? = some 1 ∧ atLastWord.cfg.code[7]? = some 0 ∧
      decode atLastWord.cfg.opc (wordOfBytes 0x40 0 1 0) = .ok (.puti 0 1) := by decide

theorem witness_EncodedInstructionAtPcIsRun :
    atLastWord.CanFetch ∧ atLastWord.cfg.opc.wf = true ∧
      (atLastWord.cfg.code.drop (4 * atLastWord.pc)).take 4 = encodeBytes atLastWord.cfg.opc (.puti 0 1) := by decide

/-- A core whose one word has opcode byte 0xE0. -/
def atBadOpcode : State := at_ [] [] [] [0xE0, 0, 0, 0]

theorem witness_WordWithoutHandlerFaults :
    atBadOpcode.CanFetch ∧ ∀ m ∈ Mnemonic.all, atBadOpcode.cfg.opc.byteOf m ≠ fieldB0 atBadOpcode.fetchWord := by decide

theorem witness_FetchOutsideTheCodeFaults :
    State.reset.status = .running ∧ State.reset.cfg.codeLen % 4 = 0 ∧ State.reset.codeWords ≤ State.reset.pc := by decide

/-- A halted core. -/
def halted : State := { State.reset with status := .halted }

/-- A core that faulted at its empty code buffer. -/
def faulted : State := State.reset.raise (.outOfBoundsProgramCounter 0)

theorem witness_NoStepFromATerminalStatus :
    halted.status ≠ .running ∧ halted.status = .halted ∧ faulted.status ≠ .running ∧
      faulted.status = .faulted (.outOfBoundsProgramCounter 0) := by decide

theorem witness_AStepExistsWhileRunning : atLastWord.status = .running ∧ atLastWord.cfg.codeLen % 4 = 0 := by decide

theorem witness_OnlyBrokenCodeLengthIsRefused :
    step (at_ [] [] [] [0, 0, 0]) = .refused .codeLengthNotWholeWords ∧
      (at_ [] [] [] [0, 0, 0]).cfg.codeLen % 4 ≠ 0 := ⟨rfl, by decide⟩

/-- A core at word 5 of 10 words, its handler running. -/
def inHandler : State := at_ [0, 100, 7] [(100, 0x41)] [0x61] (halts 10) 6

theorem witness_OnlyJumpAndIteWritePc :
    (atLastWord.CanFetch ∧ decode atLastWord.cfg.opc atLastWord.fetchWord = .ok (.puti 0 1)) ∧
    (exec (.puti 0 1) inHandler = .next (nextOr inHandler (exec (.puti 0 1) inHandler)) ∧
      (Instr.puti 0 1).mnemonic ≠ .jump ∧ (Instr.puti 0 1).mnemonic ≠ .ite) ∧
    (exec (.jump 9) inHandler = .next (nextOr inHandler (exec (.jump 9) inHandler)) ∧
      (nextOr inHandler (exec (.jump 9) inHandler)).err = inHandler.err) ∧
    (exec (.ite 1 9 2) inHandler = .next (nextOr inHandler (exec (.ite 1 9 2) inHandler)) ∧
      (nextOr inHandler (exec (.ite 1 9 2) inHandler)).err = inHandler.err ∧ inHandler.readReg 1 ≠ 0) ∧
    (exec (.ite 0 2 9) inHandler = .next (nextOr inHandler (exec (.ite 0 2 9) inHandler)) ∧
      (nextOr inHandler (exec (.ite 0 2 9) inHandler)).err = inHandler.err ∧ inHandler.readReg 0 = 0) :=
  ⟨by decide, ⟨rfl, by decide⟩, ⟨rfl, by decide⟩, ⟨rfl, by decide⟩, rfl, by decide⟩

theorem witness_CodeIsNeitherReadNorWritten :
    exec (.store 1 2) inHandler = .next (nextOr inHandler (exec (.store 1 2) inHandler)) ∧
      step inHandler = .next (nextOr inHandler (step inHandler)) ∧
      (List.replicate 40 (0xFF : Byte)).length = inHandler.cfg.code.length := ⟨rfl, rfl, by decide⟩

theorem witness_StepKeepsParametersAndTags : step atLastWord = .next (nextOr atLastWord (step atLastWord)) := rfl

theorem witness_HaltStopsTheRun :
    (Opc.default.wf = true ∧ fieldB0 0xCCBBAA00 = Opc.default.halt) ∧
      (at_ [] [] [] (halts 4) 3).CanFetch ∧
      decode (at_ [] [] [] (halts 4) 3).cfg.opc (at_ [] [] [] (halts 4) 3).fetchWord = .ok .halt := by decide

theorem witness_LoadReadsAByte :
    (Opc.default.wf = true ∧ fieldB0 0xFF010010 = Opc.default.load) ∧
    ((15 : Byte).toNat < (at_ [0, 8191]).numRegs ∧ (1 : Byte).toNat < (at_ [0, 8191]).numRegs ∧
      ((at_ [0, 8191]).readReg 1).toNat < (at_ [0, 8191]).cfg.memSize) ∧
    (at_ [0, 8192]).cfg.memSize ≤ ((at_ [0, 8192]).readReg 1).toNat ∧
    ((Instr.load 0 16).registerFields = [.b1] ++ .b2 :: [] ∧ (0 : Byte).toNat < (at_ []).numRegs ∧
      (at_ []).numRegs ≤ ((Instr.load 0 16).operandByte .b2).toNat) := by decide

theorem witness_StoreWritesTheLowByte :
    (Opc.default.wf = true ∧ fieldB0 0xFF000120 = Opc.default.store) ∧
    ((1 : Byte).toNat < (at_ [0, 8191]).numRegs ∧ (15 : Byte).toNat < (at_ [0, 8191]).numRegs ∧
      ((at_ [0, 8191]).readReg 1).toNat < (at_ [0, 8191]).cfg.memSize) ∧
    (at_ [0, 8192]).cfg.memSize ≤ ((at_ [0, 8192]).readReg 1).toNat ∧
    ((Instr.store 16 0).registerFields = [] ++ .b1 :: [.b2] ∧
      (at_ []).numRegs ≤ ((Instr.store 16 0).operandByte .b1).toNat) := by decide

theorem witness_MoveCopiesARegister :
    (Opc.default.wf = true ∧ fieldB0 0xFF030430 = Opc.default.move) ∧
    ((15 : Byte).toNat < (at_ []).numRegs ∧ (0 : Byte).toNat < (at_ []).numRegs) ∧
    ((Instr.move 0 16).registerFields = [.b1] ++ .b2 :: [] ∧
      (at_ []).numRegs ≤ ((Instr.move 0 16).operandByte .b2).toNat) := by decide

theorem witness_PutiPutsTheImmediate :
    (Opc.default.wf = true ∧ fieldB0 0xFFFF0F40 = Opc.default.puti) ∧ (15 : Byte).toNat < (at_ []).numRegs ∧
    ((Instr.puti 16 1).registerFields = [] ++ .b1 :: [] ∧
      (at_ []).numRegs ≤ ((Instr.puti 16 1).operandByte .b1).toNat) := by decide

/-- Three registers in range, the last one among them, and a third operand that is not. -/
theorem witness_AddWrapsModulo :
    (Opc.default.wf = true ∧ fieldB0 0x01000250 = Opc.default.add) ∧
    ((15 : Byte).toNat < (at_ []).numRegs ∧ (0 : Byte).toNat < (at_ []).numRegs) ∧
    ((Instr.add 0 1 16).registerFields = [.b1, .b2] ++ .b3 :: [] ∧ (1 : Byte).toNat < (at_ []).numRegs ∧
      (at_ []).numRegs ≤ ((Instr.add 0 1 16).operandByte .b3).toNat) := by decide

theorem witness_SubWrapsModulo :
    (Opc.default.wf = true ∧ fieldB0 0x01000260 = Opc.default.sub) ∧
    ((15 : Byte).toNat < (at_ []).numRegs ∧ (0 : Byte).toNat < (at_ []).numRegs) ∧
    ((Instr.sub 0 16 1).registerFields = [.b1] ++ .b2 :: [.b3] ∧
      (at_ []).numRegs ≤ ((Instr.sub 0 16 1).operandByte .b2).toNat) := by decide

theorem witness_GtComparesUnsigned :
    (Opc.default.wf = true ∧ fieldB0 0x01000270 = Opc.default.gt) ∧
    ((15 : Byte).toNat < (at_ []).numRegs ∧ (0 : Byte).toNat < (at_ []).numRegs) ∧
    ((Instr.gt 16 0 1).registerFields = [] ++ .b1 :: [.b2, .b3] ∧
      (at_ []).numRegs ≤ ((Instr.gt 16 0 1).operandByte .b1).toNat) := by decide

theorem witness_GeComparesUnsigned :
    (Opc.default.wf = true ∧ fieldB0 0x01000280 = Opc.default.ge) ∧
    ((15 : Byte).toNat < (at_ []).numRegs ∧ (0 : Byte).toNat < (at_ []).numRegs) ∧
    ((Instr.ge 16 0 1).registerFields = [] ++ .b1 :: [.b2, .b3] ∧
      (at_ []).numRegs ≤ ((Instr.ge 16 0 1).operandByte .b1).toNat) := by decide

theorem witness_EqComparesAllBits :
    (Opc.default.wf = true ∧ fieldB0 0x01000290 = Opc.default.eq) ∧
    ((15 : Byte).toNat < (at_ []).numRegs ∧ (0 : Byte).toNat < (at_ []).numRegs) ∧
    ((Instr.eq 0 1 255).registerFields = [.b1, .b2] ++ .b3 :: [] ∧
      (at_ []).numRegs ≤ ((Instr.eq 0 1 255).operandByte .b3).toNat) := by decide

theorem witness_IteSelectsAWordIndex :
    (Opc.default.wf = true ∧ fieldB0 0x060904A0 = Opc.default.ite) ∧
    ((1 : Byte).toNat < inHandler.numRegs ∧ inHandler.readReg 1 ≠ 0 ∧ (9 : Byte).toNat < inHandler.codeWords) ∧
    ((0 : Byte).toNat < inHandler.numRegs ∧ inHandler.readReg 0 = 0 ∧ (0 : Byte).toNat < inHandler.codeWords) ∧
    inHandler.codeWords ≤ (10 : Byte).toNat ∧
    ((Instr.ite 16 0 0).registerFields = [] ++ .b1 :: [] ∧
      inHandler.numRegs ≤ ((Instr.ite 16 0 0).operandByte .b1).toNat) := by decide

theorem witness_JumpSetsPc :
    (Opc.default.wf = true ∧ fieldB0 0xFFFF09B0 = Opc.default.jump) ∧ (9 : Byte).toNat < inHandler.codeWords ∧
      inHandler.codeWords ≤ (10 : Byte).toNat := by decide

/-- A string whose terminator is the last byte of the segment. -/
def stringAtEnd : State := at_ [0, 8190] [(8190, 0x41)]

theorem witness_PutsEmitsTheString :
    (Opc.default.wf = true ∧ fieldB0 0xFFFF01C0 = Opc.default.puts) ∧
    ((1 : Byte).toNat < stringAtEnd.numRegs ∧ (stringAtEnd.readReg 1).toNat + 1 < stringAtEnd.cfg.memSize ∧
      (∀ k < 1, stringAtEnd.readByte ((stringAtEnd.readReg 1).toNat + k) ≠ 0) ∧
      stringAtEnd.readByte ((stringAtEnd.readReg 1).toNat + 1) = 0) ∧
    ((Instr.puts 16).registerFields = [] ++ .b1 :: [] ∧
      stringAtEnd.numRegs ≤ ((Instr.puts 16).operandByte .b1).toNat) := by decide

/-- A last byte that is not zero, and a start offset one past the segment. -/
theorem witness_PutsWithoutTerminatorFaults :
    ((1 : Byte).toNat < (at_ [0, 8191] [(8191, 0x41)]).numRegs ∧
      ∀ b : Nat, ((at_ [0, 8191] [(8191, 0x41)]).readReg 1).toNat ≤ b → b < (at_ [0, 8191] [(8191, 0x41)]).cfg.memSize →
        (at_ [0, 8191] [(8191, 0x41)]).readByte b ≠ 0) ∧
    ((1 : Byte).toNat < (at_ [0, 8192]).numRegs ∧
      ∀ b : Nat, ((at_ [0, 8192]).readReg 1).toNat ≤ b → b < (at_ [0, 8192]).cfg.memSize →
        (at_ [0, 8192]).readByte b ≠ 0) := by
  refine ⟨⟨by decide, fun b hl hu => ?_⟩, by decide, fun b hl hu => ?_⟩
  · have h1 : 8191 ≤ b := hl
    have h2 : b < 8192 := hu
    obtain rfl : b = 8191 := by omega
    decide
  · have h1 : 8192 ≤ b := hl
    have h2 : b < 8192 := hu
    omega

/-- Whitespace, a token of two bytes, and a rest, for a range that ends exactly at the segment's end. -/
def tokenFits : State := at_ [8189] [] [0x20, 0x61, 0x62, 0x20, 0x63]

theorem witness_GetsStoresTheToken :
    (Opc.default.wf = true ∧ fieldB0 0xFFFF00D0 = Opc.default.gets) ∧
    ((0 : Byte).toNat < tokenFits.numRegs ∧ tokenFits.input = [0x20] ++ ([0x61, 0x62] ++ [0x20, 0x63]) ∧
      (∀ b ∈ [(0x20 : Byte)], b ∈ tokenFits.cfg.ws) ∧ (∀ b ∈ [(0x61 : Byte), 0x62], b ∉ tokenFits.cfg.ws) ∧
      (0x20 : Byte) ∈ tokenFits.cfg.ws ∧ (tokenFits.readReg 0).toNat + 2 + 1 ≤ tokenFits.cfg.memSize) ∧
    ((Instr.gets 16).registerFields = [] ++ .b1 :: [] ∧
      tokenFits.numRegs ≤ ((Instr.gets 16).operandByte .b1).toNat) := by decide

/-- End of input without a token, at the last byte of the segment. -/
theorem witness_GetsStoresTheToken_at_end_of_input :
    (at_ [8191] [] [0x20]).input = [0x20] ++ ([] ++ []) ∧
      ((at_ [8191] [] [0x20]).readReg 0).toNat + ([] : List Byte).length + 1 ≤ (at_ [8191] [] [0x20]).cfg.memSize := by decide

theorem witness_GetsThatDoesNotFitFaults :
    (0 : Byte).toNat < (at_ [8190] [] [0x61, 0x62]).numRegs ∧ (at_ [8190] [] [0x61, 0x62]).input = [] ++ ([0x61, 0x62] ++ []) ∧
      (∀ b ∈ [(0x61 : Byte), 0x62], b ∉ (at_ [8190] [] [0x61, 0x62]).cfg.ws) ∧
      (at_ [8190] [] [0x61, 0x62]).cfg.memSize < ((at_ [8190] [] [0x61, 0x62]).readReg 0).toNat + 2 + 1 := by decide

theorem witness_accessors :
    (8191 : Word).toNat < (at_ []).cfg.memSize ∧ (at_ []).cfg.memSize ≤ (8192 : Word).toNat ∧
      (8188 : Word).toNat + 4 ≤ (at_ []).cfg.memSize ∧ (at_ []).cfg.memSize < (8189 : Word).toNat + 4 := by decide

theorem witness_LoadAfterStoreSeesTheLowByte :
    (15 : Byte).toNat < (at_ [0x1FF, 8191]).numRegs ∧
      ((at_ [0x1FF, 8191]).readReg 1).toNat < (at_ [0x1FF, 8191]).cfg.memSize := by decide

theorem witness_PutsAfterGetsEchoesTheToken :
    (0 : Byte).toNat < tokenFits.numRegs ∧ tokenFits.input = [0x20] ++ ([0x61, 0x62] ++ [0x20, 0x63]) ∧
      (∀ b ∈ [(0x20 : Byte)], b ∈ tokenFits.cfg.ws) ∧ (∀ b ∈ [(0x61 : Byte), 0x62], b ∉ tokenFits.cfg.ws) ∧
      (∀ b ∈ [(0x61 : Byte), 0x62], b ≠ 0) ∧ (0x20 : Byte) ∈ tokenFits.cfg.ws ∧
      (tokenFits.readReg 0).toNat + 2 + 1 ≤ tokenFits.cfg.memSize := by decide

theorem witness_FirstBadRegisterOperandFaults :
    ((Instr.add 0 16 17).registerFields = [.b1] ++ .b2 :: [.b3] ∧ (0 : Byte).toNat < (at_ []).numRegs ∧
      (at_ []).numRegs ≤ ((Instr.add 0 16 17).operandByte .b2).toNat) ∧
    RegistersValid (at_ []) (.add 0 1 15) := by decide

theorem witness_OutOfBoundsAccessFaultsBeforeTheAccess :
    (at_ []).cfg.memSize < (8192 : Word).toNat + 1 ∧ (at_ []).cfg.memSize < (8189 : Word).toNat + 4 ∧
    (RegistersValid (at_ [0, 8192]) (.load 0 1) ∧ (at_ [0, 8192]).cfg.memSize ≤ ((at_ [0, 8192]).readReg 1).toNat) ∧
    RegistersValid (at_ [0, 8192]) (.store 1 0) := by decide

/-- A core at a `puts r0` whose string, the segment's last byte, has no terminator. -/
def atOpenString : State := at_ [8191] [(8191, 0x41)] [] ([0xC0, 0, 0, 0] ++ halts 1)

/-- A core at a `gets r0` whose token does not fit before the end of the segment. -/
def atLongToken : State := at_ [8190] [] [0x20, 0x61, 0x62, 0x20] ([0xD0, 0, 0, 0] ++ halts 1)

/-- A step that faults in dispatch, a `puts` and a `gets` that overflow, and a step that faults by the closing check. -/
theorem witness_FaultsArePrecise :
    (step atBadOpcode = .next (nextOr atBadOpcode (step atBadOpcode)) ∧
      (nextOr atBadOpcode (step atBadOpcode)).status = .faulted (.invalidOpcode 0xE0)) ∧
    (step atOpenString = .next (nextOr atOpenString (step atOpenString)) ∧
      (nextOr atOpenString (step atOpenString)).status = .faulted (.stringOverflow 8191 8192)) ∧
    (step atLongToken = .next (nextOr atLongToken (step atLongToken)) ∧
      (nextOr atLongToken (step atLongToken)).status = .faulted (.stringOverflow 8190 8193)) ∧
    (step atLastWord = .next (nextOr atLastWord (step atLastWord)) ∧ atLastWord.pc ≤ atLastWord.codeWords ∧
      (nextOr atLastWord (step atLastWord)).status = .faulted (.outOfBoundsProgramCounter 2)) :=
  ⟨⟨rfl, by decide⟩, ⟨rfl, by decide⟩, ⟨rfl, by decide⟩, rfl, by decide, by decide⟩

theorem witness_OnlyFallingOffTheEndLeavesTheCode :
    atLastWord.pc < atLastWord.codeWords ∧ step atLastWord = .next (nextOr atLastWord (step atLastWord)) ∧
      (nextOr atLastWord (step atLastWord)).status = .faulted (.outOfBoundsProgramCounter 2) :=
  ⟨by decide, rfl, by decide⟩

theorem witness_AtMostOneFaultPerStep : step atBadOpcode = .next (nextOr atBadOpcode (step atBadOpcode)) := rfl

theorem witness_OnlyHaltHalts :
    step (at_ [] [] [] (halts 1)) = .next (nextOr State.reset (step (at_ [] [] [] (halts 1)))) ∧
      (nextOr State.reset (step (at_ [] [] [] (halts 1)))).status = .halted := ⟨rfl, by decide⟩

theorem witness_OnlyTheDestinationRegisterChanges :
    exec (.add 2 0 1) inHandler = .next (nextOr inHandler (exec (.add 2 0 1) inHandler)) ∧
      (Instr.add 2 0 1).dest ≠ some 3 ∧
      exec (.store 1 2) inHandler = .next (nextOr inHandler (exec (.store 1 2) inHandler)) ∧
      (Instr.store 1 2).dest = none := ⟨rfl, by decide, rfl, rfl⟩

/-- A store at offset 100 beside offset 99, and a `gets` whose range is 100 and 101 beside offset 102. -/
theorem witness_OnlyStoreAndGetsChangeMemory :
    (exec (.store 1 2) inHandler = .next (nextOr inHandler (exec (.store 1 2) inHandler)) ∧
      99 ≠ (inHandler.readReg 1).toNat) ∧
    (exec (.gets 1) inHandler = .next (nextOr inHandler (exec (.gets 1) inHandler)) ∧
      (inHandler.readReg 1).toNat + inHandler.token.length < 102) := ⟨⟨rfl, by decide⟩, rfl, by decide⟩

theorem witness_OnlyTheirInstructionsTouchTheStreams :
    exec (.puts 1) inHandler = .next (nextOr inHandler (exec (.puts 1) inHandler)) ∧ (Instr.puts 1).mnemonic ≠ .gets ∧
      (nextOr inHandler (exec (.puts 1) inHandler)).err = inHandler.err := ⟨rfl, by decide, by decide⟩

theorem witness_ResetLeavesTheStatedValues :
    small.memInit.length = small.memSize ∧ (15 : Byte).toNat < small.numRegs ∧ small.memInit[2]? = some 2 := by decide

theorem witness_EveryResetMeetsTheInvariant : small.wf = true := by decide

/-- The invariant's parts at a core of small parameters that can step. -/
theorem witness_StepKeepsTheInvariant :
    (State.resetWith small).Inv ∧
      step (State.resetWith small) = .next (nextOr State.reset (step (State.resetWith small))) :=
  ⟨⟨by decide, by decide, by decide, by decide, ⟨by decide, fun _ => .inl (by decide)⟩, rfl⟩, rfl⟩

theorem witness_CanonicalMemoriesAreDetermined : Memory.wf [(0, 1), (2, 3)] = true := by decide

/-- Two cores that differ in a type tag alone. -/
theorem witness_TypeTagsAreInert :
    ({ inHandler with regs := inHandler.regs.map (fun r => { r with tag := 7 }) } : State).eraseTags = inHandler.eraseTags ∧
      ({ inHandler with regs := inHandler.regs.map (fun r => { r with tag := 7 }) } : State) ≠ inHandler := by decide

theorem witness_OutputsAreAppendOnlyAndNeverRead :
    step atLastWord = .next (nextOr atLastWord (step atLastWord)) := rfl

end Sys2Proof.Tests
end

/-!
The parameters, the register count and the tags over a step, and the invariant: at every reset, and over every step
(spec/00_scope.md R5, 10_state.md R10, R14, R19, R23). Over a step the invariant is carried from the advance of `pc` to
the closing check in a weaker form (`State.InvBeforeCheck`), which every handler keeps and which the check completes.
-/

namespace Sys2Proof

/-! ## The ranges of the parameters -/

theorem Params.wf_iff (p : Params) :
    p.wf = true ↔ p.toConfig.wf = true ∧ 16 ≤ p.numRegs ∧ p.numRegs ≤ 256 ∧ p.memInit.length = p.memSize := by
  simp [Params.wf, and_assoc]

/-- The defaults are in the ranges of R5. -/
theorem Params.default_wf : Params.default.wf = true :=
  (Params.wf_iff _).mpr ⟨by decide, by decide, by decide, List.length_replicate⟩

end Sys2Proof

namespace Sys2Proof.Machine

open Sys2Proof

/-! ## Parameters, register count and tags -/

@[simp] theorem State.checkPc_cfg (s : State) : s.checkPc.cfg = s.cfg := by
  rcases s.checkPc_cases with ⟨_, _, e⟩ | ⟨_, e⟩ <;> simp [e]

@[simp] theorem State.checkPc_regs (s : State) : s.checkPc.regs = s.regs := by
  rcases s.checkPc_cases with ⟨_, _, e⟩ | ⟨_, e⟩ <;> simp [e]

theorem Effect.cfg_eq {i : Instr} {s t : State} (h : Effect i s t) : t.cfg = s.cfg := by
  cases h <;> rfl

/-- The one effect that writes registers keeps the tags (D12). -/
theorem Effect.tags_eq {i : Instr} {s t : State} (h : Effect i s t) :
    t.regs.map Reg.tag = s.regs.map Reg.tag := by
  cases h with
  | register d v => exact s.tags_writeReg d v
  | _ => rfl

theorem step_cfg_eq {s t : State} (h : step s = .next t) : t.cfg = s.cfg := by
  obtain ⟨_, _, ⟨_, rfl⟩ | ⟨_, _, rfl⟩ | ⟨_, i, u, _, hu, rfl⟩⟩ := step_cases h
  · rfl
  · rfl
  · simpa using (exec_effect hu).cfg_eq

theorem step_tags_eq {s t : State} (h : step s = .next t) : t.regs.map Reg.tag = s.regs.map Reg.tag := by
  obtain ⟨_, _, ⟨_, rfl⟩ | ⟨_, _, rfl⟩ | ⟨_, i, u, _, hu, rfl⟩⟩ := step_cases h
  · rfl
  · rfl
  · simpa using (exec_effect hu).tags_eq

/-- There is one tag for each register. -/
theorem State.numRegs_eq_of_tags_eq {s t : State} (h : t.regs.map Reg.tag = s.regs.map Reg.tag) :
    t.numRegs = s.numRegs := by
  simpa [State.numRegs] using congrArg List.length h

/-- Settles O15: the effects of a step, from `step_cases`, write no parameter and no tag. -/
theorem stepKeepsParametersAndTags : Obligations.StepKeepsParametersAndTags :=
  fun _ _ h => ⟨step_cfg_eq h, State.numRegs_eq_of_tags_eq (step_tags_eq h), step_tags_eq h⟩

/-! ## The invariant at reset -/

/-- Settles O51: MEM_INIT, written over the empty memory, is canonical and ends at MEM_SIZE. -/
theorem everyResetMeetsTheInvariant : Obligations.EveryResetMeetsTheInvariant := by
  intro p hp
  obtain ⟨hcfg, hmin, hmax, hlen⟩ := (Params.wf_iff p).mp hp
  have hregs : (State.resetWith p).numRegs = p.numRegs := List.length_replicate
  exact {
    config := hcfg
    registers := hregs ▸ ⟨hmin, hmax⟩
    canonical := State.resetWith_mem_wf p
    inSegment := fun c hc => by
      rcases Memory.mem_writeRun hc with ⟨_, hlt⟩ | hnil
      · rwa [Nat.zero_add, hlen] at hlt
      · exact absurd hnil List.not_mem_nil
    pc := ⟨Nat.zero_le _, fun _ => (Nat.eq_zero_or_pos _).symm⟩
    err := rfl }

/-- Settles O50: `State.reset` is the reset with the default parameters. -/
theorem resetMeetsTheInvariantOfTheCore : Obligations.ResetMeetsTheInvariantOfTheCore := by
  rw [Obligations.ResetMeetsTheInvariantOfTheCore, State.reset_eq_resetWith]
  exact everyResetMeetsTheInvariant _ Params.default_wf

/-! ## The invariant over a step -/

/-- The invariant as it holds inside a step, between the advance of `pc` and the closing check: `pc` may stand at
CODE_WORDS while Running (R73, R74). -/
structure State.InvBeforeCheck (s : State) : Prop where
  config : s.cfg.wf = true
  registers : 16 ≤ s.numRegs ∧ s.numRegs ≤ 256
  canonical : Memory.wf s.mem = true
  inSegment : ∀ c ∈ s.mem, c.1 < s.cfg.memSize
  pcLe : s.pc ≤ s.codeWords
  err : s.errMatchesStatus

/-- What the closing check has to add. -/
theorem State.inv_iff (s : State) :
    s.Inv ↔ s.InvBeforeCheck ∧ (s.status = .running → s.pc < s.codeWords ∨ s.codeWords = 0) where
  mp h := ⟨{ h with pcLe := h.pc.1 }, h.pc.2⟩
  mpr h := { h.1 with pc := ⟨h.1.pcLe, h.2⟩ }

theorem State.errMatchesStatus_iff_of_running {s : State} (hr : s.status = .running) :
    s.errMatchesStatus ↔ s.err = [] := by
  simp [State.errMatchesStatus, hr]

/-- The first fault of a run leaves its one diagnostic on ERR (R130). -/
theorem State.errMatchesStatus_raise {s : State} (k : FaultKind) (h : s.err = []) :
    (s.raise k).errMatchesStatus := by
  simp [State.errMatchesStatus, h]

section invBeforeCheck
variable {s : State}

theorem State.InvBeforeCheck.err_nil (h : s.InvBeforeCheck) (hr : s.status = .running) : s.err = [] :=
  (State.errMatchesStatus_iff_of_running hr).mp h.err

theorem State.InvBeforeCheck.raise (h : s.InvBeforeCheck) (hr : s.status = .running) (k : FaultKind) :
    (s.raise k).InvBeforeCheck :=
  { h with err := State.errMatchesStatus_raise k (h.err_nil hr) }

/-- After a fault the closing check has nothing to add: the status is not Running. -/
theorem State.InvBeforeCheck.raise_inv (h : s.InvBeforeCheck) (hr : s.status = .running) (k : FaultKind) :
    (s.raise k).Inv :=
  (State.inv_iff _).mpr ⟨h.raise hr k, nofun⟩

/-- The closing check completes the invariant (R74). -/
theorem State.InvBeforeCheck.checkPc_inv (h : s.InvBeforeCheck) : s.checkPc.Inv := by
  rcases s.checkPc_cases with ⟨hr, _, e⟩ | ⟨hlt, e⟩ <;> rw [e]
  · exact h.raise_inv hr _
  · exact (State.inv_iff s).mpr ⟨h, fun hr => .inl (hlt hr)⟩

/-- A fetch inside the code buffer advances `pc` to CODE_WORDS at most (R73). -/
theorem State.InvBeforeCheck.advancePc (h : s.InvBeforeCheck) (hp : s.pc < s.codeWords) :
    s.advancePc.InvBeforeCheck :=
  { h with pcLe := hp }

theorem State.InvBeforeCheck.write (h : s.InvBeforeCheck) {a : Nat} (v : Byte) (ha : a < s.cfg.memSize) :
    ({ s with mem := Memory.write s.mem a v } : State).InvBeforeCheck :=
  { h with
    canonical := Memory.wf_write a v h.canonical
    inSegment := fun c hc => by
      rcases Memory.mem_write hc with rfl | hc
      · exact ha
      · exact h.inSegment c hc }

theorem State.InvBeforeCheck.writeRun (h : s.InvBeforeCheck) {a : Nat} {bytes : List Byte}
    (ha : a + bytes.length ≤ s.cfg.memSize) :
    ({ s with mem := Memory.writeRun s.mem a bytes } : State).InvBeforeCheck :=
  { h with
    canonical := Memory.wf_writeRun a bytes h.canonical
    inSegment := fun c hc => by
      rcases Memory.mem_writeRun hc with ⟨_, hlt⟩ | hc
      · exact Nat.lt_of_lt_of_le hlt ha
      · exact h.inSegment c hc }

end invBeforeCheck

/-- Every handler keeps the invariant up to the closing check. -/
theorem Effect.invBeforeCheck {i : Instr} {s t : State} (he : Effect i s t) (hr : s.status = .running)
    (h : s.InvBeforeCheck) : t.InvBeforeCheck := by
  have hemit (bytes : List Byte) : (s.emit bytes).InvBeforeCheck := { h with }
  have hinput : ({ s with input := s.inputAfterToken } : State).InvBeforeCheck := { h with }
  cases he with
  | trap k => exact h.raise hr k
  | halt => exact { h with err := h.err_nil hr }
  | register d v => exact { h with registers := (s.numRegs_writeReg d v).symm ▸ h.registers }
  | store a r _ ha => exact h.write _ ha
  | jump target _ ht => exact { h with pcLe := Nat.le_of_lt ht }
  | puts r bytes => exact hemit bytes
  | putsOverflow r bytes => exact (hemit bytes).raise hr _
  | gets r _ ha =>
    have hlen : (s.readReg r).toNat + (s.token ++ [0]).length ≤ s.cfg.memSize := by
      rwa [List.length_append, ← Nat.add_assoc]
    exact hinput.writeRun hlen
  | getsOverflow => exact hinput.raise hr _

/-- Settles O52: along the cases of a step, through the weaker invariant that holds before its closing check. -/
theorem stepKeepsTheInvariant : Obligations.StepKeepsTheInvariant := by
  intro s t hs h
  obtain ⟨hi, -⟩ := (State.inv_iff s).mp hs
  obtain ⟨hr, -, ⟨-, rfl⟩ | ⟨hp, -, rfl⟩ | ⟨hp, i, u, -, hu, rfl⟩⟩ := step_cases h
  · exact hi.raise_inv hr _
  · exact (hi.advancePc hp).raise_inv hr _
  · exact ((exec_effect hu).invBeforeCheck hr (hi.advancePc hp)).checkPc_inv

end Sys2Proof.Machine

/-!
Noninterference. A relation between states is a simulation when related states look alike to every handler and every
primitive update keeps them related; then an instruction, and a step that reads `pc`, status and parameters besides, keeps
them related too. Type tags (R12, D12), `pc` (R15), the code buffer (R20) and the output streams (R22, D24) are each
one such relation.
-/

namespace Sys2Proof.Machine

open Sys2Proof

/-! ## Related outcomes -/

/-- Two outcomes that agree: related next states, or the same stop. -/
inductive OutcomeRel (R : State → State → Prop) : Exec → Exec → Prop where
  | next {s t : State} (h : R s t) : OutcomeRel R (.next s) (.next t)
  | fault (f : Fault) : OutcomeRel R (.fault f) (.fault f)
  | refused (r : Refusal) : OutcomeRel R (.refused r) (.refused r)

/-- States that one view cannot tell apart give outcomes that it cannot tell apart. -/
theorem OutcomeRel.viewNext_eq {view : State → State} {x y : Exec}
    (h : OutcomeRel (fun s t => view s = view t) x y) : viewNext view x = viewNext view y := by
  cases h with
  | next h => exact congrArg Host.Outcome.next h
  | fault f => rfl
  | refused r => rfl

/-- Where one side is a function of the other, so is its outcome. -/
theorem OutcomeRel.eq_viewNext {view : State → State} {x y : Exec} (h : OutcomeRel (fun s t => t = view s) x y) :
    y = viewNext view x := by
  cases h with
  | next h => exact congrArg Host.Outcome.next h
  | fault f => rfl
  | refused r => rfl

theorem OutcomeRel.mono {R Q : State → State → Prop} (hRQ : ∀ {s t}, R s t → Q s t) {x y : Exec}
    (h : OutcomeRel R x y) : OutcomeRel Q x y := by
  cases h with
  | next h => exact .next (hRQ h)
  | fault f => exact .fault f
  | refused r => exact .refused r

/-- What the partner of a next state is. -/
theorem OutcomeRel.exists_next {R : State → State → Prop} {s : State} {y : Exec} (h : OutcomeRel R (.next s) y) :
    ∃ t, y = .next t ∧ R s t := by
  cases h with
  | next h => exact ⟨_, rfl, h⟩

/-! ## Simulations -/

/-- Everything that a handler reads of a state is the same in both. -/
structure State.LooksLike (s t : State) : Prop where
  numRegs : s.numRegs = t.numRegs
  readReg : ∀ r : Byte, s.readReg r = t.readReg r
  mem : s.mem = t.mem
  input : s.input = t.input
  memSize : s.cfg.memSize = t.cfg.memSize
  ws : s.cfg.ws = t.cfg.ws
  codeWords : s.codeWords = t.codeWords

/-- Related states look alike to the handlers, and each update that a handler makes keeps them related. -/
structure ExecSimulation (R : State → State → Prop) : Prop where
  looksLike : ∀ {s t}, R s t → s.LooksLike t
  raise : ∀ {s t}, R s t → ∀ k, R (s.raise k) (t.raise k)
  halt : ∀ {s t}, R s t → R { s with status := .halted } { t with status := .halted }
  writeReg : ∀ {s t}, R s t → ∀ d v, R (s.writeReg d v) (t.writeReg d v)
  setMem : ∀ {s t}, R s t → ∀ m, R { s with mem := m } { t with mem := m }
  setInput : ∀ {s t}, R s t → ∀ bytes, R { s with input := bytes } { t with input := bytes }
  emit : ∀ {s t}, R s t → ∀ bytes, R (s.emit bytes) (t.emit bytes)
  setPc : ∀ {s t}, R s t → ∀ p, R { s with pc := p } { t with pc := p }

/-- What a step reads beyond what the handlers read. -/
structure StepSimulation (R : State → State → Prop) : Prop extends ExecSimulation R where
  status : ∀ {s t}, R s t → s.status = t.status
  pc : ∀ {s t}, R s t → s.pc = t.pc
  cfg : ∀ {s t}, R s t → s.cfg = t.cfg

namespace State.LooksLike
variable {s t : State}

theorem symm (h : s.LooksLike t) : t.LooksLike s :=
  ⟨h.numRegs.symm, fun r => (h.readReg r).symm, h.mem.symm, h.input.symm, h.memSize.symm, h.ws.symm, h.codeWords.symm⟩

theorem trans {u : State} (h : s.LooksLike t) (g : t.LooksLike u) : s.LooksLike u :=
  ⟨h.numRegs.trans g.numRegs, fun r => (h.readReg r).trans (g.readReg r), h.mem.trans g.mem, h.input.trans g.input,
    h.memSize.trans g.memSize, h.ws.trans g.ws, h.codeWords.trans g.codeWords⟩

/-- States that agree through a view look alike where the view forgets nothing that a handler reads. -/
theorem of_view {view : State → State} (hv : ∀ u, (view u).LooksLike u) (h : view s = view t) : s.LooksLike t :=
  (hv s).symm.trans (h ▸ hv t)

theorem badRegister_eq (h : s.LooksLike t) (fields : List (OperandField × Byte)) :
    s.badRegister fields = t.badRegister fields := by
  induction fields with
  | nil => rfl
  | cons p rest ih => rw [State.badRegister, State.badRegister, h.numRegs, ih]

theorem admits_eq (h : s.LooksLike t) (a n : Nat) : s.admits a n = t.admits a n := by
  rw [State.admits, State.admits, h.memSize]

theorem readMemoryByte_eq (h : s.LooksLike t) (a : Word) : s.readMemoryByte a = t.readMemoryByte a := by
  rw [State.readMemoryByte, State.readMemoryByte, h.admits_eq, State.readByte, State.readByte, h.mem]

theorem isWs_eq (h : s.LooksLike t) : s.isWs = t.isWs := by
  funext b
  rw [State.isWs, State.isWs, h.ws]

theorem inputSkipped_eq (h : s.LooksLike t) : s.inputSkipped = t.inputSkipped := by
  rw [State.inputSkipped, State.inputSkipped, h.isWs_eq, h.input]

theorem token_eq (h : s.LooksLike t) : s.token = t.token := by
  rw [State.token, State.token, h.isWs_eq, h.inputSkipped_eq]

theorem inputAfterToken_eq (h : s.LooksLike t) : s.inputAfterToken = t.inputAfterToken := by
  rw [State.inputAfterToken, State.inputAfterToken, h.isWs_eq, h.inputSkipped_eq]

end State.LooksLike

/-! ## An instruction keeps a simulation -/

namespace ExecSimulation
variable {R : State → State → Prop} {s t : State}

theorem withRegisters (hR : ExecSimulation R) (h : R s t) (fields : List (OperandField × Byte)) {x y : Exec}
    (hxy : OutcomeRel R x y) : OutcomeRel R (s.withRegisters fields x) (t.withRegisters fields y) := by
  rw [State.withRegisters, State.withRegisters, (hR.looksLike h).badRegister_eq]
  cases t.badRegister fields with
  | none => exact hxy
  | some p => exact .next (hR.raise h _)

theorem registerOp (hR : ExecSimulation R) (h : R s t) (f : Word → Word → Word) (d a b : Byte) :
    OutcomeRel R (s.registerOp f d a b) (t.registerOp f d a b) := by
  refine hR.withRegisters h _ ?_
  rw [(hR.looksLike h).readReg a, (hR.looksLike h).readReg b]
  exact .next (hR.writeReg h d _)

theorem load (hR : ExecSimulation R) (h : R s t) (d a : Byte) :
    OutcomeRel R (execLoad d a s) (execLoad d a t) := by
  refine hR.withRegisters h _ ?_
  rw [(hR.looksLike h).readReg a, (hR.looksLike h).readMemoryByte_eq]
  cases t.readMemoryByte (t.readReg a) with
  | ok b => exact .next (hR.writeReg h d _)
  | error k => exact .next (hR.raise h k)

theorem store (hR : ExecSimulation R) (h : R s t) (a r : Byte) :
    OutcomeRel R (execStore a r s) (execStore a r t) := by
  have hl := hR.looksLike h
  refine hR.withRegisters h _ ?_
  rw [hl.readReg a, hl.readReg r, State.writeMemoryByte, State.writeMemoryByte, hl.admits_eq, hl.mem]
  cases t.admits (t.readReg a).toNat 1 with
  | true => exact .next (hR.setMem h _)
  | false => exact .next (hR.raise h _)

theorem jumpTo (hR : ExecSimulation R) (h : R s t) (target : Nat) :
    OutcomeRel R (s.jumpTo target) (t.jumpTo target) := by
  rw [State.jumpTo, State.jumpTo, (hR.looksLike h).codeWords]
  split
  · exact .next (hR.setPc h target)
  · exact .next (hR.raise h _)

theorem putString (hR : ExecSimulation R) (h : R s t) (a : Nat) :
    OutcomeRel R (s.putString a) (t.putString a) := by
  have hl := hR.looksLike h
  have hscan : Memory.scanString s.mem (s.cfg.memSize - a) a = Memory.scanString t.mem (t.cfg.memSize - a) a := by
    rw [hl.mem, hl.memSize]
  rw [State.putString_of_scan hscan, State.putString_of_scan rfl, hl.memSize]
  split
  · exact .next (hR.emit h _)
  · exact .next (hR.raise (hR.emit h _) _)

theorem getToken (hR : ExecSimulation R) (h : R s t) (a : Nat) :
    OutcomeRel R (s.getToken a) (t.getToken a) := by
  have hl := hR.looksLike h
  rw [State.getToken, State.getToken, hl.token_eq, hl.inputAfterToken_eq, hl.admits_eq]
  have hin := hR.setInput h t.inputAfterToken
  cases t.admits a (t.token.length + 1) with
  | true => rw [hl.mem]; exact .next (hR.setMem hin _)
  | false => exact .next (hR.raise hin _)

/-- Every instruction keeps a simulation. -/
theorem exec (hR : ExecSimulation R) (i : Instr) (h : R s t) : OutcomeRel R (exec i s) (exec i t) := by
  have hreg := (hR.looksLike h).readReg
  cases i with
  | halt => exact .next (hR.halt h)
  | load d a => exact hR.load h d a
  | store a r => exact hR.store h a r
  | move d r => exact hR.withRegisters h _ (.next (hreg r ▸ hR.writeReg h d _))
  | puti d v => exact hR.withRegisters h _ (.next (hR.writeReg h d _))
  | add d a b => exact hR.registerOp h _ d a b
  | sub d a b => exact hR.registerOp h _ d a b
  | gt d a b => exact hR.registerOp h (fun va vb => boolWord (BitVec.ult vb va)) d a b
  | ge d a b => exact hR.registerOp h (fun va vb => boolWord (BitVec.ule vb va)) d a b
  | eq d a b => exact hR.registerOp h (fun va vb => boolWord (va == vb)) d a b
  | ite c x y => exact hR.withRegisters h _ (hreg c ▸ hR.jumpTo h _)
  | jump x => exact hR.jumpTo h _
  | puts r => exact hR.withRegisters h _ (hreg r ▸ hR.putString h _)
  | gets r => exact hR.withRegisters h _ (hreg r ▸ hR.getToken h _)

end ExecSimulation

/-! ## A step keeps a simulation -/

namespace StepSimulation
variable {R : State → State → Prop} {s t : State}

theorem advancePc (hR : StepSimulation R) (h : R s t) : R s.advancePc t.advancePc := by
  have hp := hR.setPc h (s.pc + 1)
  rwa [show ({ t with pc := s.pc + 1 } : State) = t.advancePc by rw [hR.pc h]; rfl] at hp

theorem checkPc (hR : StepSimulation R) (h : R s t) : R s.checkPc t.checkPc := by
  rw [State.checkPc, State.checkPc, hR.status h, hR.pc h, (hR.looksLike h).codeWords]
  split
  · exact hR.raise h _
  · exact h

theorem closeStep (hR : StepSimulation R) {x y : Exec} (h : OutcomeRel R x y) :
    OutcomeRel R (closeStep x) (closeStep y) := by
  cases h with
  | next h => exact .next (hR.checkPc h)
  | fault f => exact .fault f
  | refused r => exact .refused r

theorem fetchWord_eq (hR : StepSimulation R) (h : R s t) : s.fetchWord = t.fetchWord := by
  simp only [State.fetchWord, State.codeByte, hR.pc h, hR.cfg h]

theorem runWord (hR : StepSimulation R) (h : R s t) (w : Word) : OutcomeRel R (s.runWord w) (t.runWord w) := by
  rw [State.runWord, State.runWord, hR.cfg h]
  cases decode t.cfg.opc w with
  | ok i => exact hR.closeStep (hR.exec i (hR.advancePc h))
  | error e => exact .next (hR.raise (hR.advancePc h) _)

/-- A step keeps a simulation, stops included. -/
theorem step (hR : StepSimulation R) (h : R s t) : OutcomeRel R (step s) (step t) := by
  rw [Machine.step, Machine.step, hR.status h]
  cases t.status with
  | halted => exact .fault _
  | faulted k => exact .fault _
  | running =>
    simp only [hR.cfg h, hR.pc h, (hR.looksLike h).codeWords, hR.fetchWord_eq h]
    split
    · exact .refused _
    · split
      · exact .next (hR.raise h _)
      · exact hR.runWord h _

end StepSimulation

/-! ## Type tags -/

/-- What the handlers read of a register is its value alone (R12). -/
theorem State.eraseTags_looksLike (s : State) : s.eraseTags.LooksLike s where
  numRegs := List.length_map _
  readReg r := by
    simp only [State.readReg, State.eraseTags, List.getElem?_map]
    cases s.regs[r.toNat]? <;> rfl
  mem := rfl
  input := rfl
  memSize := rfl
  ws := rfl
  codeWords := rfl

/-- A register write and the forgetting of the tags commute (R12). -/
theorem State.eraseTags_writeReg (s : State) (d : Byte) (v : Word) :
    (s.writeReg d v).eraseTags = s.eraseTags.writeReg d v := by
  have hregs : (s.writeReg d v).eraseTags.regs = (s.eraseTags.writeReg d v).regs := by
    apply List.ext_getElem?
    intro n
    simp only [State.eraseTags, State.writeReg, List.getElem?_map, List.getElem?_modify]
    cases s.regs[n]? with
    | none => rfl
    | some r => by_cases hn : d.toNat = n <;> simp [hn]
  exact congrArg (fun regs => { s with regs := regs }) hregs

/-- Equality but for the tags is a simulation: no operation reads a tag, and each one commutes with forgetting them. -/
theorem eraseTags_simulation : StepSimulation (fun s t => s.eraseTags = t.eraseTags) where
  looksLike := .of_view State.eraseTags_looksLike
  raise h k := congrArg (State.raise · k) h
  halt h := congrArg (fun u => { u with status := .halted }) h
  writeReg h d v := by
    rw [State.eraseTags_writeReg, State.eraseTags_writeReg, h]
  setMem h m := congrArg (fun u => { u with mem := m }) h
  setInput h bytes := congrArg (fun u => { u with input := bytes }) h
  emit h bytes := congrArg (State.emit · bytes) h
  setPc h p := congrArg (fun u => { u with pc := p }) h
  status h := (congrArg State.status h :)
  pc h := (congrArg State.pc h :)
  cfg h := (congrArg State.cfg h :)

/-- Settles O54: equality but for the tags is kept by a step. -/
theorem typeTagsAreInert : Obligations.TypeTagsAreInert :=
  fun _ _ h => (eraseTags_simulation.step h).viewNext_eq

/-! ## Output streams -/

/-- `s` has grown out of a state with the streams `out₀` and `err₀`, and `t` is `s` as it had grown on `o` and `e` in their
place. -/
def SameGrowth (out₀ o : List Byte) (err₀ e : List Diag) (s t : State) : Prop :=
  ∃ (out : List Byte) (diags : List Diag), s.output = out₀ ++ out ∧ s.err = err₀ ++ diags ∧
    t = { s with output := o ++ out, err := e ++ diags }

/-- Growing alike on other streams is a simulation: the streams are only appended to, and nothing else depends on them. -/
theorem sameGrowth_simulation (out₀ o : List Byte) (err₀ e : List Diag) :
    StepSimulation (SameGrowth out₀ o err₀ e) where
  looksLike := by rintro s _ ⟨out, diags, -, -, rfl⟩; constructor <;> intros <;> rfl
  raise := by
    rintro s _ ⟨out, diags, ho, he, rfl⟩ k
    exact ⟨out, diags ++ [⟨k⟩], ho, by simp [he], by simp [State.raise]⟩
  emit := by
    rintro s _ ⟨out, diags, ho, he, rfl⟩ bytes
    exact ⟨out ++ bytes, diags, by simp [ho], he, by simp [State.emit]⟩
  halt := by rintro s _ ⟨out, diags, ho, he, rfl⟩; exact ⟨out, diags, ho, he, rfl⟩
  writeReg := by rintro s _ ⟨out, diags, ho, he, rfl⟩ d v; exact ⟨out, diags, ho, he, rfl⟩
  setMem := by rintro s _ ⟨out, diags, ho, he, rfl⟩ m; exact ⟨out, diags, ho, he, rfl⟩
  setInput := by rintro s _ ⟨out, diags, ho, he, rfl⟩ bytes; exact ⟨out, diags, ho, he, rfl⟩
  setPc := by rintro s _ ⟨out, diags, ho, he, rfl⟩ p; exact ⟨out, diags, ho, he, rfl⟩
  status := by rintro s _ ⟨out, diags, -, -, rfl⟩; rfl
  pc := by rintro s _ ⟨out, diags, -, -, rfl⟩; rfl
  cfg := by rintro s _ ⟨out, diags, -, -, rfl⟩; rfl

/-- The same step on any other streams, with what it appends (R22). -/
theorem step_sameGrowth {s t : State} (h : step s = .next t) (o : List Byte) (e : List Diag) :
    ∃ (out : List Byte) (diags : List Diag), t.output = s.output ++ out ∧ t.err = s.err ++ diags ∧
      step { s with output := o, err := e } = .next { t with output := o ++ out, err := e ++ diags } := by
  have hs : SameGrowth s.output o s.err e s { s with output := o, err := e } := ⟨[], [], by simp, by simp, by simp⟩
  have hstep := (sameGrowth_simulation s.output o s.err e).step hs
  rw [h] at hstep
  obtain ⟨_, hnext, out, diags, ho, he, rfl⟩ := hstep.exists_next
  exact ⟨out, diags, ho, he, hnext⟩

/-- IN is consumed from its front, by `gets` alone (R107, D17). -/
theorem Effect.input_suffix {i : Instr} {s t : State} (h : Effect i s t) :
    ∃ consumed, s.input = consumed ++ t.input := by
  have hgets : ∃ consumed, s.input = consumed ++ s.inputAfterToken :=
    ⟨s.input.takeWhile s.isWs ++ s.token, by rw [List.append_assoc]; exact s.input_eq⟩
  cases h with
  | gets => exact hgets
  | getsOverflow => exact hgets
  | _ => exact ⟨[], rfl⟩

@[simp] theorem State.checkPc_input (s : State) : s.checkPc.input = s.input := by
  rcases s.checkPc_cases with ⟨_, _, e⟩ | ⟨_, e⟩ <;> simp [e]

theorem step_input_suffix {s t : State} (h : step s = .next t) : ∃ consumed, s.input = consumed ++ t.input := by
  obtain ⟨-, -, ⟨-, rfl⟩ | ⟨-, -, rfl⟩ | ⟨-, i, u, -, hu, rfl⟩⟩ := step_cases h
  · exact ⟨[], rfl⟩
  · exact ⟨[], rfl⟩
  · simpa using (exec_effect hu).input_suffix

/-- Settles O55: what a step appends is read off its own growth; on other streams it grows by the same. -/
theorem outputsAreAppendOnlyAndNeverRead : Obligations.OutputsAreAppendOnlyAndNeverRead := by
  intro s t h
  obtain ⟨out, diags, ho, he, -⟩ := step_sameGrowth h [] []
  obtain ⟨consumed, hi⟩ := step_input_suffix h
  refine ⟨out, consumed, diags, ho, he, hi, fun o e => ?_⟩
  obtain ⟨out', diags', ho', he', hstep⟩ := step_sameGrowth h o e
  obtain rfl : out' = out := List.append_cancel_left (ho'.symm.trans ho)
  obtain rfl : diags' = diags := List.append_cancel_left (he'.symm.trans he)
  exact hstep

/-! ## The program counter -/

/-- A state with `pc` forgotten. -/
def State.forgetPc (s : State) : State := { s with pc := 0 }

theorem State.forgetPc_looksLike (s : State) : s.forgetPc.LooksLike s :=
  ⟨rfl, fun _ => rfl, rfl, rfl, rfl, rfl, rfl⟩

/-- Equality but for `pc` is kept by every handler: none reads `pc`, and the two that write it write the same target. -/
theorem forgetPc_simulation : ExecSimulation (fun s t => s.forgetPc = t.forgetPc) where
  looksLike := .of_view State.forgetPc_looksLike
  raise h k := congrArg (State.raise · k) h
  halt h := congrArg (fun u => { u with status := .halted }) h
  writeReg h d v := congrArg (State.writeReg · d v) h
  setMem h m := congrArg (fun u => { u with mem := m }) h
  setInput h bytes := congrArg (fun u => { u with input := bytes }) h
  emit h bytes := congrArg (State.emit · bytes) h
  setPc h _ := h

/-- A step from inside the code buffer whose word decodes runs that instruction (R71). -/
theorem step_of_decode {s : State} {i : Instr} (hf : s.CanFetch) (hd : decode s.cfg.opc s.fetchWord = .ok i) :
    step s = closeStep (exec i s.advancePc) := by
  obtain ⟨hr, hlen, hp⟩ := hf
  simp [step, State.runWord, hr, hlen, Nat.not_le.mpr hp, hd]

/-- `pc` is written by `jump` and `ite` alone (R15). -/
theorem Effect.pc_eq {i : Instr} {s t : State} (h : Effect i s t) (hj : i.mnemonic ≠ .jump) (hi : i.mnemonic ≠ .ite) :
    t.pc = s.pc := by
  cases h with
  | jump target hm => exact absurd hm (by simp [hj, hi])
  | _ => rfl

/-- ERR as before means that no fault was raised. -/
theorem State.raise_err_ne (s : State) (k : FaultKind) : (s.raise k).err ≠ s.err := by
  simp

/-- A jump without a fault ends at its target, inside the code buffer (R102). -/
theorem State.jumpTo_pc {s t : State} {target : Nat} (h : s.jumpTo target = .next t) (he : t.err = s.err) :
    t.pc = target ∧ t.pc < s.codeWords := by
  rcases State.jumpTo_cases h with ⟨ht, rfl⟩ | ⟨-, rfl⟩
  · exact ⟨rfl, ht⟩
  · exact absurd he (s.raise_err_ne _)

theorem execIte_pc {s t : State} {c x y : Byte} (h : execIte c x y s = .next t) (he : t.err = s.err) :
    t.pc = (if s.readReg c ≠ 0 then x.toNat else y.toNat) ∧ t.pc < s.codeWords := by
  rcases State.withRegisters_cases h with ⟨p, -, -, rfl⟩ | ⟨-, hj⟩
  · exact absurd he (s.raise_err_ne _)
  · rw [← apply_ite BitVec.toNat]
    exact State.jumpTo_pc hj he

/-- Settles O13: the frame of `pc`, its two writers, and the simulation that forgets it. -/
theorem onlyJumpAndIteWritePc : Obligations.OnlyJumpAndIteWritePc :=
  ⟨fun _ _ hf hd => step_of_decode hf hd,
    fun _ _ _ h hj hi => (exec_effect h).pc_eq hj hi,
    fun _ _ _ h he => State.jumpTo_pc h he,
    fun _ _ _ _ _ h he => execIte_pc h he,
    fun i s p =>
      have hpc : ({ s with pc := p } : State).forgetPc = s.forgetPc := rfl
      (forgetPc_simulation.exec i hpc).viewNext_eq⟩

/-! ## The code buffer -/

/-- The state with other bytes in its code buffer. -/
def State.withCode (s : State) (code : List Byte) : State := { s with cfg := { s.cfg with code := code } }

/-- Other bytes in a code buffer of the same length are a simulation: a handler sees of the buffer only CODE_WORDS, which
its length decides. -/
theorem withCode_simulation (code : List Byte) :
    ExecSimulation (fun s t => code.length = s.cfg.code.length ∧ t = s.withCode code) where
  looksLike := by
    rintro s _ ⟨hlen, rfl⟩
    have hwords : s.codeWords = (s.withCode code).codeWords := congrArg (· / 4) hlen.symm
    exact ⟨rfl, fun _ => rfl, rfl, rfl, rfl, rfl, hwords⟩
  raise := by rintro s _ ⟨hlen, rfl⟩ k; exact ⟨hlen, rfl⟩
  halt := by rintro s _ ⟨hlen, rfl⟩; exact ⟨hlen, rfl⟩
  writeReg := by rintro s _ ⟨hlen, rfl⟩ d v; exact ⟨hlen, rfl⟩
  setMem := by rintro s _ ⟨hlen, rfl⟩ m; exact ⟨hlen, rfl⟩
  setInput := by rintro s _ ⟨hlen, rfl⟩ bytes; exact ⟨hlen, rfl⟩
  emit := by rintro s _ ⟨hlen, rfl⟩ bytes; exact ⟨hlen, rfl⟩
  setPc := by rintro s _ ⟨hlen, rfl⟩ p; exact ⟨hlen, rfl⟩

/-- With other code bytes an instruction does the same, and they stay in the buffer (R20). -/
theorem exec_withCode (i : Instr) (s : State) {code : List Byte} (hlen : code.length = s.cfg.code.length) :
    exec i (s.withCode code) = viewNext (State.withCode · code) (exec i s) :=
  (((withCode_simulation code).exec i ⟨hlen, rfl⟩).mono And.right).eq_viewNext

/-- Settles O14: no effect writes a parameter, and the handlers see of the buffer its length alone. -/
theorem codeIsNeitherReadNorWritten : Obligations.CodeIsNeitherReadNorWritten :=
  ⟨fun _ _ _ h => congrArg Config.code (exec_effect h).cfg_eq,
    fun _ _ h => congrArg Config.code (step_cfg_eq h),
    fun i s _ hlen => exec_withCode i s hlen⟩

end Sys2Proof.Machine

/-!
The remaining frames of 10_state.md: which slots of the dispatch table are unset (R21, R57), which instruction halts (R16),
and what an instruction leaves unchanged of the registers (R11, R13), the memory (R19, R47) and the streams (R22). The frames
are read off `Effect`. At the end, canonical memories are determined by what they read as (log 3).
-/

namespace Sys2Proof

/-! ## Unset slots of the dispatch table -/

/-- A slot is unset exactly when its byte is not among the 14 of OPC. -/
theorem Opc.lookup_isNone_iff (o : Opc) (b : Byte) : (o.lookup b).isNone = true ↔ b ∉ o.bytes := by
  rw [Option.isNone_iff_eq_none, Opc.lookup_eq_none_iff, Opc.bytes_eq_map]
  simp [Mnemonic.mem_all]

/-- The opcode bytes in rising order, one for each slot (R21). -/
def slotBytes : List Byte := (List.range numFuncs).map (BitVec.ofNat 8)

theorem mem_slotBytes (b : Byte) : b ∈ slotBytes :=
  List.mem_map.mpr ⟨b.toNat, List.mem_range.mpr b.isLt, by simp⟩

theorem slotBytes_nodup : slotBytes.Nodup := by
  refine List.nodup_range.map_on fun x hx y hy e => ?_
  have hx : x < 256 := List.mem_range.mp hx
  have hy : y < 256 := List.mem_range.mp hy
  simpa [Nat.mod_eq_of_lt, hx, hy] using congrArg BitVec.toNat e

/-- The set slots are the 14 of OPC. -/
theorem Opc.length_setSlots {o : Opc} (h : o.wf = true) : (slotBytes.filter (· ∈ o.bytes)).length = 14 := by
  have hperm : (slotBytes.filter (· ∈ o.bytes)).Perm o.bytes :=
    (List.perm_ext_iff_of_nodup (slotBytes_nodup.filter _) (of_decide_eq_true h)).mpr
      fun b => by simp [mem_slotBytes]
  exact hperm.length_eq

theorem Opc.length_unsetSlots {o : Opc} (h : o.wf = true) :
    ((List.range numFuncs).filter (fun b => (o.lookup (BitVec.ofNat 8 b)).isNone)).length = 242 := by
  have hunset : (slotBytes.filter (fun b => (o.lookup b).isNone)) = slotBytes.filter (fun b => !decide (b ∈ o.bytes)) :=
    List.filter_congr fun b _ => by rw [Bool.eq_iff_iff, Opc.lookup_isNone_iff]; simp
  have hlen : slotBytes.length = 256 := by simp [slotBytes, numFuncs]
  have hsplit : slotBytes.length = _ + _ := List.length_eq_length_filter_add (· ∈ o.bytes)
  rw [← hunset, Opc.length_setSlots h, hlen, slotBytes, List.filter_map, List.length_map] at hsplit
  simp only [Function.comp_def] at hsplit
  omega

theorem decode_eq_invalidOpcode_iff (o : Opc) (w : Word) :
    decode o w = .error (.invalidOpcode (fieldB0 w)) ↔ ∀ m : Mnemonic, o.byteOf m ≠ fieldB0 w := by
  rcases decode_cases o w with ⟨m, hm, hd⟩ | ⟨hm, hd⟩
  · simp only [hd, reduceCtorEq, false_iff]
    exact fun hne => hne m hm
  · simp [hd, hm]

/-- Settles O4: an unset slot is a byte outside OPC, and OPC fills 14 slots of the 256. -/
theorem opcodesWithoutHandlerAreRejected : Obligations.OpcodesWithoutHandlerAreRejected :=
  ⟨decode_eq_invalidOpcode_iff, fun _ h => Opc.length_unsetSlots h⟩

end Sys2Proof

namespace Sys2Proof.Machine

open Sys2Proof

/-! ## The transition to Halted -/

/-- Of all effects only that of `halt` leaves Running for Halted (R16, R80). -/
theorem Effect.eq_halt {i : Instr} {s t : State} (h : Effect i s t) (hs : s.status = .running)
    (ht : t.status = .halted) : i = .halt ∧ t = { s with status := .halted } := by
  have hne : s.status ≠ .halted := by simp [hs]
  cases h with
  | halt hi => exact ⟨hi, rfl⟩
  | trap => cases ht
  | putsOverflow => cases ht
  | getsOverflow => cases ht
  | _ => exact absurd ht hne

/-- The closing check halts nothing. -/
theorem State.checkPc_eq_of_halted {s : State} (h : s.checkPc.status = .halted) : s.checkPc = s := by
  rcases s.checkPc_cases with ⟨-, -, e⟩ | ⟨-, e⟩
  · rw [e] at h
    cases h
  · exact e

/-- Settles O45: of the cases of a step the faults do not end in Halted, and the handler that does is `halt`. -/
theorem onlyHaltHalts : Obligations.OnlyHaltHalts := by
  intro s t h ht
  obtain ⟨hr, -, ⟨-, rfl⟩ | ⟨-, -, rfl⟩ | ⟨-, i, u, hd, hu, rfl⟩⟩ := step_cases h
  · cases ht
  · cases ht
  · have hcheck := State.checkPc_eq_of_halted ht
    rw [hcheck] at ht ⊢
    obtain ⟨rfl, rfl⟩ := (exec_effect hu).eq_halt hr ht
    exact ⟨hd, rfl⟩

/-! ## Frames -/

theorem Effect.readReg_eq {i : Instr} {s t : State} (h : Effect i s t) {r : Byte} (hr : i.dest ≠ some r) :
    t.readReg r = s.readReg r := by
  cases h with
  | register d v hi => exact s.readReg_writeReg_ne v fun e => hr (e ▸ hi)
  | _ => rfl

theorem Effect.regs_eq {i : Instr} {s t : State} (h : Effect i s t) (hi : i.dest = none) : t.regs = s.regs := by
  cases h with
  | register d v hd => simp [hi] at hd
  | _ => rfl

/-- Settles O46: the only effect that writes registers writes the destination's value. -/
theorem onlyTheDestinationRegisterChanges : Obligations.OnlyTheDestinationRegisterChanges := by
  intro i s t h
  have he := exec_effect h
  exact ⟨fun _ => he.readReg_eq, State.numRegs_eq_of_tags_eq he.tags_eq, he.tags_eq, he.regs_eq⟩

/-- A run of writes leaves every offset outside it. -/
theorem Memory.read_writeRun_outside (m : Memory) {a b : Nat} {bytes : List Byte}
    (h : b < a ∨ a + bytes.length ≤ b) : Memory.read (Memory.writeRun m a bytes) b = Memory.read m b := by
  rw [Memory.read_writeRun]
  split
  · next hle =>
    rw [List.getElem?_eq_none (by omega), Option.getD_none]
  · rfl

theorem Effect.readByte_eq {i : Instr} {s t : State} (h : Effect i s t) {b : Nat}
    (hstore : ∀ a r, i = .store a r → b ≠ (s.readReg a).toNat)
    (hgets : ∀ r, i = .gets r → b < (s.readReg r).toNat ∨ (s.readReg r).toNat + s.token.length < b) :
    t.readByte b = s.readByte b := by
  cases h with
  | store a r hi =>
    exact (Memory.read_write _ _ _ _).trans (if_neg (hstore a r hi).symm)
  | gets r hi =>
    refine Memory.read_writeRun_outside _ ((hgets r hi).imp_right fun hlt => ?_)
    simpa [← Nat.add_assoc] using hlt
  | _ => rfl

/-- Settles O47: the only effects that write memory are a store at its address and a token with its terminator. -/
theorem onlyStoreAndGetsChangeMemory : Obligations.OnlyStoreAndGetsChangeMemory :=
  fun _ _ _ h _ => (exec_effect h).readByte_eq

theorem Effect.input_eq {i : Instr} {s t : State} (h : Effect i s t) (hi : i.mnemonic ≠ .gets) :
    t.input = s.input := by
  cases h with
  | gets r he => exact absurd (congrArg Instr.mnemonic he) hi
  | getsOverflow r a b he => exact absurd (congrArg Instr.mnemonic he) hi
  | _ => rfl

theorem Effect.output_eq {i : Instr} {s t : State} (h : Effect i s t) (hi : i.mnemonic ≠ .puts) :
    t.output = s.output := by
  cases h with
  | puts r bytes he => exact absurd (congrArg Instr.mnemonic he) hi
  | putsOverflow r bytes a b he => exact absurd (congrArg Instr.mnemonic he) hi
  | _ => rfl

/-- ERR grows by a fault's one diagnostic, or status and ERR are left alone but for `halt` (R16, R130). -/
theorem Effect.err_status {i : Instr} {s t : State} (h : Effect i s t) :
    (∃ k, t.err = s.err ++ [⟨k⟩] ∧ t.status = .faulted k) ∨
      (t.err = s.err ∧ (i.mnemonic ≠ .halt → t.status = s.status)) := by
  cases h with
  | trap k => exact .inl ⟨k, rfl, rfl⟩
  | putsOverflow => exact .inl ⟨_, rfl, rfl⟩
  | getsOverflow => exact .inl ⟨_, rfl, rfl⟩
  | halt hi => exact .inr ⟨rfl, fun hne => absurd (congrArg Instr.mnemonic hi) hne⟩
  | _ => exact .inr ⟨rfl, fun _ => rfl⟩

/-- Settles O48: field by field over the effects. -/
theorem onlyTheirInstructionsTouchTheStreams : Obligations.OnlyTheirInstructionsTouchTheStreams := by
  intro i s t h
  have he := exec_effect h
  refine ⟨he.input_eq, he.output_eq, ?_⟩
  rcases he.err_status with ⟨k, herr, hst⟩ | ⟨herr, hst⟩
  · exact ⟨.inr ⟨k, herr, hst⟩, fun heq => by simp [herr] at heq⟩
  · exact ⟨.inl herr, fun _ => hst⟩

/-! ## Canonical memories -/

/-- In rising order an offset is listed at most once, so a listed cell is what its offset reads as. -/
theorem Memory.read_of_mem {m : Memory} (hs : (m.map Prod.fst).Pairwise (· < ·)) {c : Host.Cell} (hc : c ∈ m) :
    Memory.read m c.1 = c.2 := by
  induction m with
  | nil => cases hc
  | cons d rest ih =>
    obtain ⟨hd, hrest⟩ := List.pairwise_cons.mp hs
    rw [Memory.read]
    rcases List.mem_cons.mp hc with rfl | hc
    · exact if_pos rfl
    · rw [if_neg (Nat.ne_of_lt (hd c.1 (List.mem_map_of_mem hc))), ih hrest hc]

/-- An offset that does not read as an unlisted one is listed. -/
theorem Memory.mem_of_read_ne {m : Memory} {a : Nat} (h : Memory.read m a ≠ unlistedByte) :
    (a, Memory.read m a) ∈ m := by
  induction m with
  | nil => exact absurd rfl h
  | cons d rest ih =>
    rw [Memory.read] at h ⊢
    split
    · next ha => simp [← ha]
    · next ha =>
      rw [if_neg ha] at h
      exact List.mem_cons_of_mem _ (ih h)

/-- The cells of a canonical memory, told by its reads alone. -/
theorem Memory.mem_iff_read {m : Memory} (h : Memory.wf m = true) (c : Host.Cell) :
    c ∈ m ↔ Memory.read m c.1 = c.2 ∧ c.2 ≠ unlistedByte := by
  obtain ⟨hs, hv⟩ := (Memory.wf_iff m).mp h
  constructor
  · exact fun hc => ⟨Memory.read_of_mem hs hc, hv c hc⟩
  · rintro ⟨hread, hne⟩
    have hmem := Memory.mem_of_read_ne (hread ▸ hne)
    rwa [hread] at hmem

/-- Settles O53: canonical memories that read alike have the same cells, and rising order leaves one way to list them. -/
theorem canonicalMemoriesAreDetermined : Obligations.CanonicalMemoriesAreDetermined := by
  intro m n hm hn hread
  have hsm := List.pairwise_map.mp ((Memory.wf_iff m).mp hm).1
  have hsn := List.pairwise_map.mp ((Memory.wf_iff n).mp hn).1
  have hperm : m.Perm n :=
    (List.perm_ext_iff_of_nodup (hsm.imp fun hlt e => Nat.ne_of_lt hlt (congrArg Prod.fst e))
      (hsn.imp fun hlt e => Nat.ne_of_lt hlt (congrArg Prod.fst e))).mpr
      fun c => by rw [Memory.mem_iff_read hm, Memory.mem_iff_read hn, hread]
  exact hperm.eq_of_pairwise (fun _ _ _ _ hxy hyx => absurd hxy (Nat.lt_asymm hyx)) hsm hsn

end Sys2Proof.Machine

/-!
Memory access (20_memory.md). The bounds of the three accessors (R31 to R34), the little-endian value of four bytes (R36),
and R41(a): a `load` after a `store` through the same address register. `load` and `store` without a fault are each one
equation, which the last of these chains.
-/

namespace Sys2Proof

/-! ## Values of bytes and words -/

/-- The upper part of a concatenation counts in units of the lower part's range. -/
theorem toNat_append_eq_add {m n : Nat} (x : BitVec m) (y : BitVec n) :
    (x ++ y).toNat = 2 ^ n * x.toNat + y.toNat := by
  rw [BitVec.toNat_append, ← Nat.shiftLeft_add_eq_or_of_lt y.isLt, Nat.shiftLeft_eq, Nat.mul_comm]

/-- The byte at the lowest offset is the least significant (R36, R52). -/
theorem toNat_wordOfBytes (c0 c1 c2 c3 : Byte) :
    (wordOfBytes c0 c1 c2 c3).toNat = c0.toNat + 2 ^ 8 * c1.toNat + 2 ^ 16 * c2.toNat + 2 ^ 24 * c3.toNat := by
  have happend : (wordOfBytes c0 c1 c2 c3).toNat = (c3 ++ c2 ++ c1 ++ c0 : BitVec (8 + 8 + 8 + 8)).toNat := rfl
  rw [happend, toNat_append_eq_add, toNat_append_eq_add, toNat_append_eq_add]
  omega

end Sys2Proof

namespace Sys2Proof.Machine

open Sys2Proof

/-- A widened byte keeps its value (R54, D13). -/
@[simp] theorem toNat_zext32 (b : Byte) : (zext32 b).toNat = b.toNat :=
  BitVec.toNat_setWidth_of_le (by decide)

/-- The low byte is the value modulo 256 (R83). -/
@[simp] theorem toNat_lowByte (w : Word) : (lowByte w).toNat = w.toNat % 256 :=
  BitVec.extractLsb'_toNat 0 8 w

/-! ## The accessors -/

/-- A state's bytes after a write to its memory (R33, R41). -/
theorem State.readByte_write (s : State) (a : Nat) (v : Byte) (b : Nat) :
    ({ s with mem := Memory.write s.mem a v } : State).readByte b = if a = b then v else s.readByte b :=
  Memory.read_write s.mem a v b

/-- A word read that the bounds check of R34 admits (R32). -/
theorem State.readMemoryWord_of_fits {s : State} {a : Word} (h : a.toNat + 4 ≤ s.cfg.memSize) :
    s.readMemoryWord a =
      .ok (wordOfBytes (s.readByte a.toNat) (s.readByte (a.toNat + 1)) (s.readByte (a.toNat + 2))
        (s.readByte (a.toNat + 3))) :=
  if_pos (State.admits_iff.mpr h)

/-- A word read that the bounds check of R34 does not admit. -/
theorem State.readMemoryWord_of_overflow {s : State} {a : Word} (h : s.cfg.memSize < a.toNat + 4) :
    s.readMemoryWord a = .error (.outOfBoundsMemoryAccess a.toNat 4) :=
  if_neg fun hadmits => Nat.not_le.mpr h (State.admits_iff.mp hadmits)

/-- Settles O32: the two sides of the bounds check. -/
theorem readMemoryByteChecksItsBound : Obligations.ReadMemoryByteChecksItsBound :=
  fun _ _ => ⟨State.readMemoryByte_of_lt, State.readMemoryByte_of_le⟩

/-- Settles O33: inside the segment the answer is one `Memory.write`, and `State.readByte_write` says what it left. -/
theorem writeMemoryByteChecksItsBound : Obligations.WriteMemoryByteChecksItsBound := by
  intro s a v
  refine ⟨fun ha => ⟨_, State.writeMemoryByte_of_lt v ha, rfl, ?written, fun b hb => ?frame⟩,
    State.writeMemoryByte_of_le v⟩
  case written => exact (s.readByte_write _ v _).trans (if_pos rfl)
  case frame => exact (s.readByte_write _ v b).trans (if_neg hb.symm)

/-- Settles O34: inside the segment the answer is `wordOfBytes` of the four bytes, whose value is their sum. -/
theorem readMemoryWordIsLittleEndian : Obligations.ReadMemoryWordIsLittleEndian :=
  fun _ _ => ⟨fun h => ⟨_, State.readMemoryWord_of_fits h, toNat_wordOfBytes _ _ _ _⟩, State.readMemoryWord_of_overflow⟩

/-! ## `load` and `store` without a fault -/

/-- `load` with its registers in range and its address inside the segment (R82). -/
theorem exec_load_of_lt {s : State} {d a : Byte} (hd : d.toNat < s.numRegs) (ha : a.toNat < s.numRegs)
    (hm : (s.readReg a).toNat < s.cfg.memSize) :
    exec (.load d a) s = .next (s.writeReg d (zext32 (s.readByte (s.readReg a).toNat))) := by
  rw [exec, execLoad, State.withRR_of_valid _ hd ha, State.readMemoryByte_of_lt hm, Except.map, State.orRaise]

/-- `store` with its registers in range and its address inside the segment (R83). -/
theorem exec_store_of_lt {s : State} {a r : Byte} (ha : a.toNat < s.numRegs) (hr : r.toNat < s.numRegs)
    (hm : (s.readReg a).toNat < s.cfg.memSize) :
    exec (.store a r) s =
      .next { s with mem := Memory.write s.mem (s.readReg a).toNat (lowByte (s.readReg r)) } := by
  rw [exec, execStore, State.withRR_of_valid _ ha hr, State.writeMemoryByte_of_lt _ hm, State.orRaise]

/-- Settles O35: the store leaves the registers, so the load reads the byte it wrote, whichever registers coincide. -/
theorem loadAfterStoreSeesTheLowByte : Obligations.LoadAfterStoreSeesTheLowByte := by
  intro s a r d ha hr hd hm
  refine ⟨_, _, exec_store_of_lt ha hr hm, exec_load_of_lt hd ha hm, ?_⟩
  rw [State.readReg_writeReg_self _ (by exact hd), toNat_zext32, State.readByte_write, if_pos (by rfl), toNat_lowByte]

end Sys2Proof.Machine

/-!
The instruction word (30_encoding.md). An instruction is determined by its mnemonic and the operand bytes its format uses
(R51, R53), so decoding and encoding are inverse in both directions up to unused bytes (R55, R56, R59, D21), and encoded
bytes in the code buffer are what a step runs (R52, R71). Then the register operands: every handler checks them before
anything else (R58, D5).
-/

namespace Sys2Proof

/-! ## An instruction and its operand bytes -/

/-- An instruction is its mnemonic with its own operand bytes. -/
@[simp] theorem Mnemonic.instr_operandByte (i : Instr) :
    i.mnemonic.instr (i.operandByte .b1) (i.operandByte .b2) (i.operandByte .b3) = i := by
  cases i <;> rfl

/-- Instructions are equal when they agree in the mnemonic and in the bytes its format uses: the other bytes are 0. -/
theorem Instr.eq_of_usedBytes {i j : Instr} (hm : i.mnemonic = j.mnemonic)
    (hb : ∀ f, i.mnemonic.format.operandUse f ≠ .unused → i.operandByte f = j.operandByte f) : i = j := by
  have hbytes (f : OperandField) : i.operandByte f = j.operandByte f := by
    by_cases hu : i.mnemonic.format.operandUse f = .unused
    · rw [Laws.EncodedFields.operandByte_of_unused i f hu, Laws.EncodedFields.operandByte_of_unused j f (hm ▸ hu)]
    · exact hb f hu
  rw [← Mnemonic.instr_operandByte i, ← Mnemonic.instr_operandByte j, hm, hbytes, hbytes, hbytes]

/-- The instruction of mnemonic `m` with the operand bytes of a word (R51). -/
def Mnemonic.ofWord (m : Mnemonic) (w : Word) : Instr := m.instr (fieldB1 w) (fieldB2 w) (fieldB3 w)

@[simp] theorem Mnemonic.ofWord_mnemonic (m : Mnemonic) (w : Word) : (m.ofWord w).mnemonic = m :=
  m.instr_mnemonic _ _ _

/-- A handler takes from the word every byte its format uses (R53). -/
theorem Mnemonic.operandByte_ofWord (m : Mnemonic) (w : Word) {f : OperandField} (hu : m.format.operandUse f ≠ .unused) :
    (m.ofWord w).operandByte f = operandField w f := by
  revert hu
  cases m <;> cases f <;>
    simp [Mnemonic.format, Format.operandUse, Mnemonic.ofWord, Mnemonic.instr, Instr.operandByte, operandField]

/-- The register operands of an instruction, field and byte, in the order in which R58 checks them. -/
def Instr.registerOperands (i : Instr) : List (OperandField × Byte) :=
  i.registerFields.map fun f => (f, i.operandByte f)

theorem Instr.registersInRange_iff (n : Nat) (i : Instr) :
    i.registersInRange n = true ↔ ∀ p ∈ i.registerOperands, p.2.toNat < n := by
  simp [Instr.registersInRange, Instr.registerOperands]

/-! ## Encoding and decoding -/

@[simp] theorem fieldB0_encode (o : Opc) (i : Instr) : fieldB0 (encode o i) = o.byteOf i.mnemonic :=
  (Laws.EncodedFields.of_instr i o).1

@[simp] theorem operandField_encode (o : Opc) (i : Instr) (f : OperandField) :
    operandField (encode o i) f = i.operandByte f :=
  ((Laws.EncodedFields.of_instr i o).2 f).1

/-- Under an injective OPC the opcode byte alone says which instruction a word is (R55). -/
theorem decode_of_fieldB0 {o : Opc} (ho : o.wf = true) {w : Word} {m : Mnemonic} (hw : fieldB0 w = o.byteOf m) :
    decode o w = .ok (m.ofWord w) :=
  decode_of_lookup (hw ▸ Opc.lookup_byteOf ho m)

theorem decode_encode {o : Opc} (ho : o.wf = true) (i : Instr) : decode o (encode o i) = .ok i := by
  rw [decode_of_fieldB0 ho (fieldB0_encode o i)]
  congr 1
  exact Instr.eq_of_usedBytes (by simp) fun f hu => by
    rw [Mnemonic.ofWord_mnemonic] at hu
    rw [Mnemonic.operandByte_ofWord _ _ hu, operandField_encode]

/-- The code bytes of a word make that word again (R52). -/
theorem wordOfBytes_of_bytesOfWord {w : Word} {c0 c1 c2 c3 : Byte} (h : bytesOfWord w = [c0, c1, c2, c3]) :
    wordOfBytes c0 c1 c2 c3 = w := by
  cases h
  exact wordOfBytes_fields w

/-- Settles O1: the opcode byte finds the mnemonic again, and the used bytes determine the instruction. -/
theorem decodeOfEncodeIsTheInstruction : Obligations.DecodeOfEncodeIsTheInstruction := by
  refine fun o ho i => ⟨decode_encode ho i, fun c0 c1 c2 c3 hc => ?_⟩
  rw [decodeBytes, wordOfBytes_of_bytesOfWord hc, decode_encode ho]

/-- Settles O2: what decodes is the mnemonic of the opcode byte with the word's own operand bytes. -/
theorem encodeOfDecodeKeepsUsedBytes : Obligations.EncodeOfDecodeKeepsUsedBytes := by
  intro o w i hi
  rcases decode_cases o w with ⟨m, hm, hd⟩ | ⟨-, hd⟩
  · obtain rfl : m.ofWord w = i := Except.ok.inj (hd.symm.trans hi)
    refine ⟨by simp [hm], fun f hu => ?_⟩
    rw [Mnemonic.ofWord_mnemonic] at hu
    rw [operandField_encode, Mnemonic.operandByte_ofWord m w hu]
  · cases hd.symm.trans hi

/-- Settles O3: both words decode by their opcode byte, to instructions that agree in the used bytes. -/
theorem unusedBytesAreIgnored : Obligations.UnusedBytesAreIgnored := by
  refine fun o m w v ho hw => ⟨decode_of_fieldB0 ho hw, fun hv hused => ?_⟩
  rw [decode_of_fieldB0 ho hw, decode_of_fieldB0 ho (hv.trans hw)]
  congr 1
  refine Instr.eq_of_usedBytes (by simp) fun f hu => ?_
  rw [Mnemonic.ofWord_mnemonic] at hu
  rw [Mnemonic.operandByte_ofWord m v hu, Mnemonic.operandByte_ofWord m w hu, hused f hu]

theorem Opc.default_wf : Opc.default.wf = true := by decide

/-- Settles O5: each row's bytes and encoding are computed; that it decodes back is the round trip. -/
theorem workedEncodingsDecode : Obligations.WorkedEncodingsDecode := by
  intro row hrow
  obtain ⟨hword, hencode⟩ : wordOfBytes row.1.1 row.1.2.1 row.1.2.2.1 row.1.2.2.2 = row.2.1 ∧
      encode .default row.2.2 = row.2.1 := by
    revert row
    decide
  exact ⟨hword, hencode ▸ decode_encode Opc.default_wf _, hencode⟩

end Sys2Proof

namespace Sys2Proof.Machine

open Sys2Proof

/-! ## Encoded bytes in the code buffer -/

/-- Fetch reads the word whose four bytes stand in the code buffer at `4*pc` (R52, R72). -/
theorem State.fetchWord_of_bytes {s : State} {w : Word} (h : (s.cfg.code.drop (4 * s.pc)).take 4 = bytesOfWord w) :
    s.fetchWord = w := by
  have hbyte (k : Nat) (hk : k < 4) : s.codeByte (4 * s.pc + k) = ((bytesOfWord w)[k]?).getD 0 := by
    rw [← h, List.getElem?_take_of_lt hk, List.getElem?_drop, State.codeByte]
  have hfirst : s.codeByte (4 * s.pc) = fieldB0 w := hbyte 0 (by decide)
  rw [State.fetchWord, hfirst, hbyte 1 (by decide), hbyte 2 (by decide), hbyte 3 (by decide)]
  exact wordOfBytes_fields w

/-- Settles O7: the fetched word is the encoding, which decodes to the instruction. -/
theorem encodedInstructionAtPcIsRun : Obligations.EncodedInstructionAtPcIsRun := by
  intro s i hf ho hcode
  exact step_of_decode hf (by rw [State.fetchWord_of_bytes hcode, decode_encode ho])

/-! ## The register operands -/

/-- An outcome that adds no diagnostic of a bad register index to those of `s`. -/
def NoIndexDiag (s : State) (x : Exec) : Prop :=
  ∀ t f b, x = .next t → t.err ≠ s.err ++ [⟨.invalidRegisterIndex f b⟩]

theorem NoIndexDiag.of_err_eq {s t : State} (h : t.err = s.err) : NoIndexDiag s (.next t) := by
  rintro _ f b ⟨⟩
  simp [h]

theorem NoIndexDiag.raise {s t : State} {k : FaultKind} (h : t.err = s.err)
    (hk : ∀ f b, k ≠ .invalidRegisterIndex f b) : NoIndexDiag s (.next (t.raise k)) := by
  rintro _ f b ⟨⟩
  simp [h, hk]

theorem NoIndexDiag.jumpTo (s : State) (target : Nat) : NoIndexDiag s (s.jumpTo target) := by
  rw [State.jumpTo]
  split
  · exact .of_err_eq rfl
  · exact .raise rfl nofun

theorem NoIndexDiag.load (s : State) (d a : Byte) :
    NoIndexDiag s (s.orRaise ((s.readMemoryByte (s.readReg a)).map (fun b => s.writeReg d (zext32 b)))) := by
  rw [State.readMemoryByte]
  split
  · exact .of_err_eq rfl
  · exact .raise rfl nofun

theorem NoIndexDiag.store (s : State) (a r : Byte) :
    NoIndexDiag s (s.orRaise (s.writeMemoryByte (s.readReg a) (lowByte (s.readReg r)))) := by
  rw [State.writeMemoryByte]
  split
  · exact .of_err_eq rfl
  · exact .raise rfl nofun

theorem NoIndexDiag.putString (s : State) (a : Nat) : NoIndexDiag s (s.putString a) := by
  intro t f b h
  obtain ⟨bytes, rfl | rfl⟩ := State.putString_cases h <;> simp

theorem NoIndexDiag.getToken (s : State) (a : Nat) : NoIndexDiag s (s.getToken a) := by
  intro t f b h
  rcases State.getToken_cases h with ⟨-, rfl⟩ | ⟨-, rfl⟩ <;> simp

/-- Every instruction checks its register operands first; what it does after that reports no bad index (R58). -/
theorem exec_eq_withRegisters (i : Instr) (s : State) :
    ∃ handler, exec i s = s.withRegisters i.registerOperands handler ∧ NoIndexDiag s handler := by
  cases i with
  | halt => exact ⟨execHalt s, rfl, .of_err_eq rfl⟩
  | load d a => exact ⟨_, rfl, .load s d a⟩
  | store a r => exact ⟨_, rfl, .store s a r⟩
  | jump x => exact ⟨execJump x s, rfl, .jumpTo s _⟩
  | ite c x y => exact ⟨_, rfl, .jumpTo s _⟩
  | puts a => exact ⟨_, rfl, .putString s _⟩
  | gets a => exact ⟨_, rfl, .getToken s _⟩
  | move | puti | add | sub | gt | ge | eq => exact ⟨_, rfl, .of_err_eq rfl⟩

/-- Every instruction takes InvalidRegisterIndex on its first bad register operand and does nothing else (R58, D5). -/
theorem trapsOnBadRegister (s : State) (i : Instr) : TrapsOnBadRegister s i := by
  intro before after f hfields hbefore hf
  obtain ⟨handler, hexec, -⟩ := exec_eq_withRegisters i s
  have hbad : s.badRegister i.registerOperands = some (f, i.operandByte f) := by
    rw [Instr.registerOperands, hfields, List.map_append, List.map_cons]
    exact State.badRegister_eq_some (by simpa using hbefore) hf
  rw [hexec, State.withRegisters, hbad]

/-- Settles O40: the check comes first, and past it nothing reports a bad index. -/
theorem firstBadRegisterOperandFaults : Obligations.FirstBadRegisterOperandFaults := by
  refine fun i s => ⟨trapsOnBadRegister s i, fun hvalid t f b h => ?_⟩
  obtain ⟨handler, hexec, hdiag⟩ := exec_eq_withRegisters i s
  rw [hexec, State.withRegisters_of_valid handler ((Instr.registersInRange_iff _ i).mp hvalid)] at h
  exact hdiag t f b h

end Sys2Proof.Machine

/-!
Fetch and dispatch (40_fetch_dispatch.md). First one equation of `step` per case: the terminal statuses (R75), the check
before the first fetch (R77), the decoded word (R71, R74) and the word without a handler (R76). Then what a step adds to
ERR (R78, R134), and the one way `pc` leaves the code buffer inside a run (R74, R122).
-/

namespace Sys2Proof

/-- An instruction with a destination register neither stops the run nor transfers control. -/
theorem Instr.mnemonic_ne_of_dest {i : Instr} {d : Byte} (h : i.dest = some d) :
    i.mnemonic ≠ .halt ∧ i.mnemonic ≠ .jump ∧ i.mnemonic ≠ .ite := by
  cases i with
  | halt | jump | ite => cases h
  | _ => exact ⟨nofun, nofun, nofun⟩

end Sys2Proof

namespace Sys2Proof.Machine

open Sys2Proof

/-! ## The terminal statuses and the check before the first fetch -/

theorem step_of_halted {s : State} (h : s.status = .halted) : step s = .fault .alreadyHalted := by
  rw [step, h]

theorem step_of_faulted {s : State} {k : FaultKind} (h : s.status = .faulted k) :
    step s = .fault (.alreadyFaulted k) := by
  rw [step, h]

/-- Settles O10: a step that answers a next state started Running, and each terminal status has its stop. -/
theorem noStepFromATerminalStatus : Obligations.NoStepFromATerminalStatus :=
  fun _ => ⟨fun hne _ h => hne (step_cases h).1, step_of_halted, fun _ => step_of_faulted⟩

/-- Settles O9: of the three guards of `step` the first two pass and the third one faults. -/
theorem fetchOutsideTheCodeFaults : Obligations.FetchOutsideTheCodeFaults := by
  intro s hr hlen hp
  simp [step, hr, hlen, hp]

/-! ## The fetched word -/

/-- A step from inside the code buffer whose word does not decode advances `pc` and faults (R76, R124). -/
theorem step_of_decode_error {s : State} {e : DecodeError} (hf : s.CanFetch)
    (hd : decode s.cfg.opc s.fetchWord = .error e) : step s = .next (s.advancePc.raise (decodeFault e)) := by
  obtain ⟨hr, hlen, hp⟩ := hf
  simp [step, State.runWord, hr, hlen, Nat.not_le.mpr hp, hd]

/-- Settles O8: the opcode byte's slot is unset, so the word does not decode. -/
theorem wordWithoutHandlerFaults : Obligations.WordWithoutHandlerFaults :=
  fun _ hf hunset => step_of_decode_error hf (decode_of_unset (Opc.lookup_eq_none_iff.mpr hunset))

/-- Fetch reads the four code bytes at `4*pc`, the lowest offset in bits 7:0 (R52, D1). -/
theorem State.fetchWord_of_getElem? {s : State} {c0 c1 c2 c3 : Byte} (h0 : s.cfg.code[4 * s.pc]? = some c0)
    (h1 : s.cfg.code[4 * s.pc + 1]? = some c1) (h2 : s.cfg.code[4 * s.pc + 2]? = some c2)
    (h3 : s.cfg.code[4 * s.pc + 3]? = some c3) : s.fetchWord = wordOfBytes c0 c1 c2 c3 := by
  simp [State.fetchWord, State.codeByte, h0, h1, h2, h3]

/-- The closing check of a next state, branch by branch (R74, D8). -/
theorem closeStep_next (t : State) :
    closeStep (.next t) =
      if t.status = .running ∧ t.codeWords ≤ t.pc then .next (t.raise (.outOfBoundsProgramCounter t.pc))
      else .next t :=
  apply_ite Host.Outcome.next _ _ _

/-- Settles O6: the fetched word is the four bytes', so the step is the handler and the closing check. -/
theorem stepRunsTheDecodedInstruction : Obligations.StepRunsTheDecodedInstruction := by
  refine ⟨fun s c0 c1 c2 c3 i hf h0 h1 h2 h3 hd => ?_, fun _ => rfl⟩
  rw [← State.fetchWord_of_getElem? h0 h1 h2 h3] at hd
  rw [step_of_decode hf hd, State.advancePc]
  cases exec i { s with pc := s.pc + 1 } with
  | next t => exact closeStep_next t
  | fault => rfl
  | refused => rfl

/-! ## At most one fault per step -/

/-- From `s` to `t` no diagnostic was added, or exactly the one that the status of `t` names. -/
def AddsAtMostOneFault (s t : State) : Prop :=
  (t.status.isFaulted = false ∧ t.err = s.err) ∨ ∃ k, t.status = .faulted k ∧ t.err = s.err ++ [⟨k⟩]

/-- A handler takes at most one fault (R78). -/
theorem Effect.addsAtMostOneFault {i : Instr} {s t : State} (h : Effect i s t) (hs : s.status = .running) :
    AddsAtMostOneFault s t := by
  have hnot : s.status.isFaulted = false := by rw [hs]; rfl
  cases h with
  | trap k => exact .inr ⟨k, rfl, rfl⟩
  | putsOverflow => exact .inr ⟨_, rfl, rfl⟩
  | getsOverflow => exact .inr ⟨_, rfl, rfl⟩
  | halt => exact .inl ⟨rfl, rfl⟩
  | _ => exact .inl ⟨hnot, rfl⟩

/-- The closing check adds no second fault: it is made only while Running (D8). -/
theorem AddsAtMostOneFault.checkPc {s t : State} (h : AddsAtMostOneFault s t) : AddsAtMostOneFault s t.checkPc := by
  rcases t.checkPc_cases with ⟨hr, -, e⟩ | ⟨-, e⟩ <;> rw [e]
  · rcases h with ⟨-, herr⟩ | ⟨k, hk, -⟩
    · exact .inr ⟨_, rfl, by rw [State.raise_err, herr]⟩
    · cases hr.symm.trans hk
  · exact h

/-- Settles O44: each case of a step faults once, or runs a handler and the closing check. -/
theorem atMostOneFaultPerStep : Obligations.AtMostOneFaultPerStep := by
  intro s t h
  obtain ⟨hr, -, ⟨-, rfl⟩ | ⟨-, -, rfl⟩ | ⟨-, i, u, -, hu, rfl⟩⟩ := step_cases h
  · exact .inr ⟨_, rfl, rfl⟩
  · exact .inr ⟨_, rfl, rfl⟩
  · exact ((exec_effect hu).addsAtMostOneFault hr).checkPc

/-! ## Falling off the end of the code -/

/-- No handler takes OutOfBoundsProgramCounter itself (R122). -/
theorem Effect.status_ne_outOfBoundsProgramCounter {i : Instr} {s t : State} (h : Effect i s t)
    (hs : s.status = .running) (p : Nat) : t.status ≠ .faulted (.outOfBoundsProgramCounter p) := by
  cases h with
  | trap k hk => exact fun e => hk p (Status.faulted.inj e)
  | halt => nofun
  | putsOverflow => nofun
  | getsOverflow => nofun
  | _ => exact fun e => nomatch hs.symm.trans e

/-- An instruction that ends Running outside the code buffer is none of the three that could not: `halt` stops, and `jump`
and `ite` check their target (R80, R102). -/
theorem Effect.mnemonic_ne_of_running_outside {i : Instr} {s t : State} (h : Effect i s t)
    (hr : t.status = .running) (hp : t.codeWords ≤ t.pc) :
    i.mnemonic ≠ .halt ∧ i.mnemonic ≠ .jump ∧ i.mnemonic ≠ .ite := by
  cases h with
  | trap => cases hr
  | halt => cases hr
  | putsOverflow => cases hr
  | getsOverflow => cases hr
  | jump target _ ht => exact absurd hp (Nat.not_le.mpr ht)
  | register d v hi => exact Instr.mnemonic_ne_of_dest hi
  | store _ _ hi | puts _ _ hi | gets _ hi => cases hi; exact ⟨nofun, nofun, nofun⟩

/-- Where the closing check is what takes OutOfBoundsProgramCounter, the state before it was Running outside the code
buffer (R74). -/
theorem State.checkPc_eq_raise {s : State} {p : Nat} (h : s.checkPc.status = .faulted (.outOfBoundsProgramCounter p))
    (hne : s.status ≠ .faulted (.outOfBoundsProgramCounter p)) :
    s.status = .running ∧ s.codeWords ≤ s.pc ∧ s.pc = p ∧ s.checkPc = s.raise (.outOfBoundsProgramCounter p) := by
  rcases s.checkPc_cases with ⟨hr, hp, e⟩ | ⟨-, e⟩ <;> rw [e] at h
  · cases h
    exact ⟨hr, hp, rfl, e⟩
  · exact absurd h hne

/-- Settles O43: only the closing check takes this fault, after an instruction that left the advanced `pc` alone. -/
theorem onlyFallingOffTheEndLeavesTheCode : Obligations.OnlyFallingOffTheEndLeavesTheCode := by
  intro s t p hp h ht
  obtain ⟨hr, -, ⟨hle, -⟩ | ⟨-, -, rfl⟩ | ⟨-, i, u, hd, hu, rfl⟩⟩ := step_cases h
  · exact absurd hle (Nat.not_le.mpr hp)
  · cases ht
  · have heff := exec_effect hu
    obtain ⟨hur, hule, rfl, hraise⟩ := State.checkPc_eq_raise ht (heff.status_ne_outOfBoundsProgramCounter hr p)
    obtain ⟨hhalt, hjump, hite⟩ := heff.mnemonic_ne_of_running_outside hur hule
    have hpc : u.pc = s.pc + 1 := heff.pc_eq hjump hite
    have hwords : u.codeWords = s.codeWords := congrArg Config.codeWords heff.cfg_eq
    have hlast : s.pc + 1 = s.codeWords := by omega
    exact ⟨hpc.trans hlast, hlast, i, u, hd, hhalt, hjump, hite, hu, hur, hraise⟩

end Sys2Proof.Machine

/-!
`halt` (41_halt.md R80): the opcode byte alone selects it, it sets the status and nothing else, and the closing check of a
step is not made after it.
-/

namespace Sys2Proof.Machine

open Sys2Proof

theorem exec_halt (s : State) : exec .halt s = .next { s with status := .halted } := rfl

/-- The closing check is made only while Running (R71 part 4, R74, D8). -/
theorem State.checkPc_of_not_running {s : State} (h : s.status ≠ .running) : s.checkPc = s := by
  rcases s.checkPc_cases with ⟨hr, -, -⟩ | ⟨-, e⟩
  · exact absurd hr h
  · exact e

/-- `halt` ends its step: no range check follows it, in the last word of the code either (R80). -/
theorem closeStep_exec_halt (s : State) : closeStep (exec .halt s) = .next { s with status := .halted } := by
  have hne : ({ s with status := .halted } : State).status ≠ .running := nofun
  rw [exec_halt, closeStep, State.checkPc_of_not_running hne]

/-- Settles O16: the opcode byte decides the decoding, and the step is the advance and then `halt`, without a range check. -/
theorem haltStopsTheRun : Obligations.HaltStopsTheRun := by
  refine ⟨fun o w ho hw => decode_of_fieldB0 (m := .halt) ho hw, exec_halt, fun s hf hd => ?_, rfl⟩
  rw [step_of_decode hf hd, closeStep_exec_halt, State.advancePc]

end Sys2Proof.Machine

/-!
Data movement (42_data_movement.md). With its registers in range an instruction is one equation, and one more for the
fault of `load` and `store` at MEM_SIZE and above. What a register write leaves unchanged is said once, for every
instruction with a destination. The decoder's half (R55) and the index trap (R58, D5) are the general lemmas above.
-/

namespace Sys2Proof.Machine

open Sys2Proof

/-! ## A result in a register -/

/-- A widened byte is the byte's number as a word, 0..255 (R54, D13). -/
theorem zext32_eq_ofNat (b : Byte) : zext32 b = BitVec.ofNat 32 b.toNat :=
  (BitVec.ofNat_toNat 32 b).symm

/-- The frame of a register write: the other registers, the tags and the rest of the state are as before (R11 to R13). -/
theorem State.setsRegister_writeReg {s : State} {d : Byte} (v : Word) (hd : d.toNat < s.numRegs) :
    SetsRegister s (s.writeReg d v) d v :=
  ⟨rfl, State.readReg_writeReg_self v hd, fun _ => s.readReg_writeReg_ne v, s.tags_writeReg d v⟩

/-! ## The handlers past the register check -/

/-- `load` from an address outside the segment (R82, R121). -/
theorem exec_load_of_le {s : State} {d a : Byte} (hd : d.toNat < s.numRegs) (ha : a.toNat < s.numRegs)
    (hm : s.cfg.memSize ≤ (s.readReg a).toNat) :
    exec (.load d a) s = .next (s.raise (.outOfBoundsMemoryAccess (s.readReg a).toNat 1)) := by
  rw [exec, execLoad, State.withRR_of_valid _ hd ha, State.readMemoryByte_of_le hm, Except.map, State.orRaise]

/-- `store` to an address outside the segment (R83, R121). -/
theorem exec_store_of_le {s : State} {a r : Byte} (ha : a.toNat < s.numRegs) (hr : r.toNat < s.numRegs)
    (hm : s.cfg.memSize ≤ (s.readReg a).toNat) :
    exec (.store a r) s = .next (s.raise (.outOfBoundsMemoryAccess (s.readReg a).toNat 1)) := by
  rw [exec, execStore, State.withRR_of_valid _ ha hr, State.writeMemoryByte_of_le _ hm, State.orRaise]

/-- `move` with its registers in range (R84). -/
theorem exec_move_of_valid {s : State} {d r : Byte} (hd : d.toNat < s.numRegs) (hr : r.toNat < s.numRegs) :
    exec (.move d r) s = .next (s.writeReg d (s.readReg r)) := by
  rw [exec, execMove, State.withRR_of_valid _ hd hr]

/-- `puti` with its destination in range (R85). -/
theorem exec_puti_of_valid {s : State} {d : Byte} (v : Byte) (hd : d.toNat < s.numRegs) :
    exec (.puti d v) s = .next (s.writeReg d (zext32 v)) := by
  rw [exec, execPuti, State.withR_of_valid _ hd]

/-! ## The instructions -/

/-- Settles O18: past the register check `store` is one byte written to memory, and `State.readByte_write` says what that
left. -/
theorem storeWritesTheLowByte : Obligations.StoreWritesTheLowByte := by
  refine ⟨fun o w ho hw => decode_of_fieldB0 (m := .store) ho hw,
    fun s a r ha hr hm => ⟨_, exec_store_of_lt ha hr hm, rfl, ?written, fun b hb => ?frame⟩,
    fun s a r => exec_store_of_le, fun s a r => trapsOnBadRegister s _⟩
  case written => rw [State.readByte_write, if_pos rfl, toNat_lowByte]
  case frame => rw [State.readByte_write, if_neg hb.symm]

/-- Settles O17: past the register check `load` writes the widened byte to its destination, or faults. -/
theorem loadReadsAByte : Obligations.LoadReadsAByte := by
  refine ⟨fun o w ho hw => decode_of_fieldB0 (m := .load) ho hw,
    fun s d a hd ha hm => ⟨_, exec_load_of_lt hd ha hm, ?_⟩,
    fun s d a => exec_load_of_le, fun s d a => trapsOnBadRegister s _⟩
  rw [← zext32_eq_ofNat]
  exact State.setsRegister_writeReg _ hd

/-- Settles O19: past the register check `move` writes the source's value to its destination. -/
theorem moveCopiesARegister : Obligations.MoveCopiesARegister :=
  ⟨fun _ _ ho hw => decode_of_fieldB0 (m := .move) ho hw,
    fun _ _ _ hd hr => ⟨_, exec_move_of_valid hd hr, State.setsRegister_writeReg _ hd⟩,
    fun s _ _ => trapsOnBadRegister s _⟩

/-- Settles O20: past the register check `puti` writes the widened immediate to its destination. -/
theorem putiPutsTheImmediate : Obligations.PutiPutsTheImmediate := by
  refine ⟨fun o w ho hw => decode_of_fieldB0 (m := .puti) ho hw,
    fun s d v hd => ⟨_, exec_puti_of_valid v hd, ?_⟩, fun s d v => trapsOnBadRegister s _⟩
  rw [← zext32_eq_ofNat]
  exact State.setsRegister_writeReg _ hd

end Sys2Proof.Machine

/-!
Arithmetic and comparison (43_arithmetic_compare.md). The five instructions are one shape, the prologue of R96 and then a
function of the two old source values in the destination; that shape is treated once. What is left of each is an equation
between the model's word operation and the rule's formula on unsigned numbers.
-/

namespace Sys2Proof.Machine

open Sys2Proof

/-! ## The shape the five share -/

/-- The prologue of R96 with its registers in range: both sources are read before the write, so the registers may
coincide. -/
theorem State.registerOp_of_valid {s : State} {d a b : Byte} (f : Word → Word → Word) (hd : d.toNat < s.numRegs)
    (ha : a.toNat < s.numRegs) (hb : b.toNat < s.numRegs) :
    s.registerOp f d a b = .next (s.writeReg d (f (s.readReg a) (s.readReg b))) :=
  State.withRRR_of_valid _ hd ha hb

/-- An instruction whose handler is a register operation `f` is selected by its opcode byte (R55), puts the rule's value
`g` of the old sources in its destination and changes nothing else (R96), and traps on its first bad register (D5). -/
theorem registerOp_instruction {m : Mnemonic} {f g : Word → Word → Word} (hfg : ∀ va vb, f va vb = g va vb)
    (hm : ∀ s d a b, exec (m.instr d a b) s = s.registerOp f d a b) :
    (∀ (o : Opc) (w : Word), o.wf = true → fieldB0 w = o.byteOf m → decode o w = .ok (m.ofWord w)) ∧
    (∀ (s : State) (d a b : Byte), d.toNat < s.numRegs → a.toNat < s.numRegs → b.toNat < s.numRegs →
      ∃ t, exec (m.instr d a b) s = .next t ∧ SetsRegister s t d (g (s.readReg a) (s.readReg b))) ∧
    (∀ (s : State) (d a b : Byte), TrapsOnBadRegister s (m.instr d a b)) := by
  refine ⟨fun o w ho hw => decode_of_fieldB0 ho hw, fun s d a b hd ha hb => ?completes,
    fun s d a b => trapsOnBadRegister s _⟩
  case completes =>
    rw [hm, State.registerOp_of_valid f hd ha hb, hfg]
    exact ⟨_, rfl, State.setsRegister_writeReg _ hd⟩

/-! ## The word operations as formulas on unsigned numbers -/

/-- The formula of R90. -/
theorem add_eq_ofNat_mod (va vb : Word) : va + vb = BitVec.ofNat 32 ((va.toNat + vb.toNat) % 2 ^ 32) := by
  rw [← BitVec.toNat_add, BitVec.ofNat_toNat, BitVec.setWidth_eq]

/-- The formula of R91: the difference, or with a borrow the difference plus 2^32. -/
theorem sub_eq_ofNat_ite (va vb : Word) : va - vb = BitVec.ofNat 32
    (if vb.toNat ≤ va.toNat then va.toNat - vb.toNat else va.toNat + 2 ^ 32 - vb.toNat) := by
  apply BitVec.eq_of_toNat_eq
  rw [BitVec.toNat_sub, BitVec.toNat_ofNat]
  split <;> omega

/-- A comparison's word is exactly 1 or 0 (R95). -/
theorem boolWord_decide (p : Prop) [Decidable p] : boolWord (decide p) = if p then 1 else 0 := by
  simp [boolWord]

/-- The comparison of R94: words are equal when their numbers are, since all 32 bits count. -/
theorem boolWord_beq (va vb : Word) : boolWord (va == vb) = if va.toNat = vb.toNat then 1 else 0 := by
  rw [← boolWord_decide, beq_eq_decide, decide_eq_decide.mpr BitVec.toNat_inj]

/-! ## The instructions -/

/-- Settles O21: `add` is the register operation of R90's formula. -/
theorem addWrapsModulo : Obligations.AddWrapsModulo :=
  registerOp_instruction (m := .add) add_eq_ofNat_mod fun _ _ _ _ => rfl

/-- Settles O22: `sub` is the register operation of R91's formula. -/
theorem subWrapsModulo : Obligations.SubWrapsModulo :=
  registerOp_instruction (m := .sub) sub_eq_ofNat_ite fun _ _ _ _ => rfl

/-- Settles O23: `gt` compares as unsigned numbers (D14), `b` below `a`. -/
theorem gtComparesUnsigned : Obligations.GtComparesUnsigned :=
  registerOp_instruction (m := .gt) (fun va vb => boolWord_decide (vb.toNat < va.toNat)) fun _ _ _ _ => rfl

/-- Settles O24: `ge` compares as unsigned numbers (D14), `b` at most `a`. -/
theorem geComparesUnsigned : Obligations.GeComparesUnsigned :=
  registerOp_instruction (m := .ge) (fun va vb => boolWord_decide (vb.toNat ≤ va.toNat)) fun _ _ _ _ => rfl

/-- Settles O25: `eq` compares the words, which is comparing their numbers. -/
theorem eqComparesAllBits : Obligations.EqComparesAllBits :=
  registerOp_instruction (m := .eq) boolWord_beq fun _ _ _ _ => rfl

end Sys2Proof.Machine

/-!
Control transfer (44_control_transfer.md). The bound check of R102 is two equations of `State.jumpTo`, and each instruction
is one equation that says which target it hands to it: the one of `jump`, or the arm the condition selects for `ite`. The
other arm does not occur there (D23), and what follows about targets inside and outside the code is the same for both.
-/

namespace Sys2Proof.Machine

open Sys2Proof

/-! ## The bound check before `pc` is written -/

theorem State.jumpTo_of_lt {s : State} {target : Nat} (h : target < s.codeWords) :
    s.jumpTo target = .next { s with pc := target } :=
  if_pos h

theorem State.jumpTo_of_le {s : State} {target : Nat} (h : s.codeWords ≤ target) :
    s.jumpTo target = .next (s.raise (.invalidJumpTarget target)) :=
  if_neg (Nat.not_lt_of_le h)

/-! ## The target of each instruction -/

/-- `jump` hands over its immediate in every state: there is no register check before it (R101). -/
theorem exec_jump (x : Byte) (s : State) : exec (.jump x) s = s.jumpTo x.toNat := rfl

/-- `ite` with a condition other than 0 hands over its then-target (R100). -/
theorem exec_ite_of_ne_zero {s : State} {c : Byte} (x y : Byte) (hc : c.toNat < s.numRegs) (hne : s.readReg c ≠ 0) :
    exec (.ite c x y) s = s.jumpTo x.toNat := by
  rw [exec, execIte, State.withR_of_valid _ hc, if_pos hne, wordIndex]

/-- `ite` with condition 0 hands over its else-target (R100). -/
theorem exec_ite_of_eq_zero {s : State} {c : Byte} (x y : Byte) (hc : c.toNat < s.numRegs) (hz : s.readReg c = 0) :
    exec (.ite c x y) s = s.jumpTo y.toNat := by
  rw [exec, execIte, State.withR_of_valid _ hc, if_neg (not_not_intro hz), wordIndex]

/-! ## The instructions -/

/-- Settles O26: the condition selects the target, and the bound check of that one target decides. -/
theorem iteSelectsAWordIndex : Obligations.IteSelectsAWordIndex := by
  refine ⟨fun o w ho hw => decode_of_fieldB0 (m := .ite) ho hw, fun s c x y hc hne hx => ?thenIn,
    fun s c x y hc hz hy => ?elseIn, fun s c x y hc hne hx => ?thenOut, fun s c x y hc hz hy => ?elseOut,
    fun s c x y => trapsOnBadRegister s _⟩
  case thenIn => rw [exec_ite_of_ne_zero x y hc hne, State.jumpTo_of_lt hx]
  case elseIn => rw [exec_ite_of_eq_zero x y hc hz, State.jumpTo_of_lt hy]
  case thenOut => rw [exec_ite_of_ne_zero x y hc hne, State.jumpTo_of_le hx]
  case elseOut => rw [exec_ite_of_eq_zero x y hc hz, State.jumpTo_of_le hy]

/-- Settles O27: the bound check of the immediate alone decides, in every state. -/
theorem jumpSetsPc : Obligations.JumpSetsPc := by
  refine ⟨fun o w ho hw => decode_of_fieldB0 (m := .jump) ho hw, fun s x hx => ?inside, fun s x hx => ?outside⟩
  case inside => rw [exec_jump, State.jumpTo_of_lt hx]
  case outside => rw [exec_jump, State.jumpTo_of_le hx]

end Sys2Proof.Machine

/-!
Console input and output (45_console_io.md). `puts` is two equations, one for each way its scan ends (R106). The input
of `gets` is split into whitespace, token and rest by membership in WS (R107, R110), and past the split its bounds
check decides. R111 is then the two instructions' own statements chained: what `gets` is said to store is what `puts`
is said to emit.
-/

namespace Sys2Proof.Machine

open Sys2Proof

/-! ## Runs of bytes in memory -/

/-- A segment that holds a run's bytes at ascending offsets reads as that run. -/
theorem State.bytesFrom_eq_of_getElem? {s : State} {a : Nat} {bytes : List Byte}
    (h : ∀ k b, bytes[k]? = some b → s.readByte (a + k) = b) : s.bytesFrom a bytes.length = bytes := by
  refine List.ext_getElem (by simp [State.bytesFrom]) fun k _ hk => ?_
  simpa [State.bytesFrom] using h k bytes[k] (List.getElem?_eq_getElem hk)

/-- A run of writes is read back byte by byte (R41). -/
theorem Memory.read_writeRun_inside (m : Memory) (a : Nat) {bytes : List Byte} {k : Nat} {b : Byte}
    (h : bytes[k]? = some b) : Memory.read (Memory.writeRun m a bytes) (a + k) = b := by
  rw [Memory.read_writeRun, if_pos (Nat.le_add_right a k), Nat.add_sub_cancel_left, h, Option.getD_some]

/-! ## The two ends of the scan of `puts` -/

/-- `puts` with a zero byte `n` bytes after its address, the first one and inside the segment (R106). -/
theorem exec_puts_of_zero {s : State} {r : Byte} {n : Nat} (hr : r.toNat < s.numRegs)
    (hn : (s.readReg r).toNat + n < s.cfg.memSize) (hnz : ∀ k < n, s.readByte ((s.readReg r).toNat + k) ≠ 0)
    (hz : s.readByte ((s.readReg r).toNat + n) = 0) :
    exec (.puts r) s = .next (s.emit (s.bytesFrom (s.readReg r).toNat n)) := by
  have hfuel : n < s.cfg.memSize - (s.readReg r).toNat := Nat.lt_sub_iff_add_lt'.mpr hn
  rw [exec, execPuts, State.withR_of_valid _ hr, State.putString_of_scan (Memory.scanString_of_zero hfuel hnz hz),
    if_pos rfl]
  rfl

/-- `puts` with no zero byte from its address to the end of the segment (R106, R125). -/
theorem exec_puts_of_nonzero {s : State} {r : Byte} (hr : r.toNat < s.numRegs)
    (hnz : ∀ b : Nat, (s.readReg r).toNat ≤ b → b < s.cfg.memSize → s.readByte b ≠ 0) :
    exec (.puts r) s =
      .next ((s.emit (s.bytesFrom (s.readReg r).toNat (s.cfg.memSize - (s.readReg r).toNat))).raise
        (.stringOverflow (s.readReg r).toNat (max (s.readReg r).toNat s.cfg.memSize))) := by
  have hscan : ∀ k < s.cfg.memSize - (s.readReg r).toNat, Memory.read s.mem ((s.readReg r).toNat + k) ≠ 0 :=
    fun k hk => hnz _ (Nat.le_add_right _ k) (Nat.add_lt_of_lt_sub' hk)
  rw [exec, execPuts, State.withR_of_valid _ hr, State.putString_of_scan (Memory.scanString_of_nonzero hscan),
    if_neg Bool.false_ne_true]
  rfl

/-! ## The token of `gets` -/

theorem State.isWs_iff {s : State} {b : Byte} : s.isWs b = true ↔ b ∈ s.cfg.ws :=
  List.contains_iff_mem

theorem State.isWs_eq_false_iff {s : State} {b : Byte} : s.isWs b = false ↔ b ∉ s.cfg.ws := by
  rw [← State.isWs_iff, Bool.not_eq_true]

/-- IN is whitespace, then a token, then nothing or, after a token that is not empty, a rest that begins with whitespace
(R107, R110, D17). -/
structure State.InputSplits (s : State) (lead tok rest : List Byte) : Prop where
  input_eq : s.input = lead ++ (tok ++ rest)
  lead_ws : ∀ b ∈ lead, b ∈ s.cfg.ws
  token_not_ws : ∀ b ∈ tok, b ∉ s.cfg.ws
  rest_starts_ws : rest = [] ∨ (tok ≠ [] ∧ ∃ b more, rest = b :: more ∧ b ∈ s.cfg.ws)

/-- Such a split is the one that `gets` makes. -/
theorem State.InputSplits.token_eq {s : State} {lead tok rest : List Byte} (h : s.InputSplits lead tok rest) :
    s.token = tok ∧ s.inputAfterToken = rest :=
  State.token_of_split h.input_eq (fun b hb => State.isWs_iff.mpr (h.lead_ws b hb))
    (fun b hb => State.isWs_eq_false_iff.mpr (h.token_not_ws b hb))
    (by simpa only [State.isWs_iff] using h.rest_starts_ws)

/-- `gets` where the token and its terminator fit (R107). -/
theorem exec_gets_of_fits {s : State} {r : Byte} {lead tok rest : List Byte} (hr : r.toNat < s.numRegs)
    (hin : s.InputSplits lead tok rest) (hfit : (s.readReg r).toNat + tok.length + 1 ≤ s.cfg.memSize) :
    exec (.gets r) s =
      .next { s with input := rest, mem := Memory.writeRun s.mem (s.readReg r).toNat (tok ++ [0]) } := by
  obtain ⟨rfl, rfl⟩ := hin.token_eq
  rw [exec, execGets, State.withR_of_valid _ hr, State.getToken_of_fits hfit]

/-- `gets` where they do not fit (R107, R125, D18). -/
theorem exec_gets_of_overflow {s : State} {r : Byte} {lead tok rest : List Byte} (hr : r.toNat < s.numRegs)
    (hin : s.InputSplits lead tok rest) (hover : s.cfg.memSize < (s.readReg r).toNat + tok.length + 1) :
    exec (.gets r) s =
      .next (State.raise { s with input := rest }
        (.stringOverflow (s.readReg r).toNat ((s.readReg r).toNat + tok.length + 1))) := by
  obtain ⟨rfl, rfl⟩ := hin.token_eq
  rw [exec, execGets, State.withR_of_valid _ hr, State.getToken_of_overflow hover]

/-! ## The instructions -/

/-- Settles O28: the first zero byte is inside the segment, so it ends the scan. -/
theorem putsEmitsTheString : Obligations.PutsEmitsTheString :=
  ⟨fun _ _ ho hw => decode_of_fieldB0 (m := .puts) ho hw, fun _ _ _ => exec_puts_of_zero,
    fun s _ => trapsOnBadRegister s _⟩

/-- Settles O29: no zero byte ends the scan, so the end of the segment does. -/
theorem putsWithoutTerminatorFaults : Obligations.PutsWithoutTerminatorFaults :=
  fun _ _ => exec_puts_of_nonzero

/-- Settles O30: the token and its terminator are one run of writes, read back inside it and a frame outside it. -/
theorem getsStoresTheToken : Obligations.GetsStoresTheToken := by
  refine ⟨fun o w ho hw => decode_of_fieldB0 (m := .gets) ho hw,
    fun s r lead tok rest hr hin hlead htok hrest hfit =>
      ⟨_, exec_gets_of_fits hr ⟨hin, hlead, htok, hrest⟩ hfit, rfl, fun k b hk => ?token, ?terminator,
        fun b hb => ?frame⟩,
    fun s r => trapsOnBadRegister s _⟩
  case token =>
    have hlt : k < tok.length := (List.getElem?_eq_some_iff.mp hk).1
    exact Memory.read_writeRun_inside _ _ ((List.getElem?_append_left hlt).trans hk)
  case terminator => exact Memory.read_writeRun_inside _ _ List.getElem?_concat_length
  case frame => exact Memory.read_writeRun_outside _ (by simpa [← Nat.add_assoc] using hb)

/-- Settles O31: the bounds check of the whole range fails before the first write. -/
theorem getsThatDoesNotFitFaults : Obligations.GetsThatDoesNotFitFaults :=
  fun _ _ _ _ _ hr hin hlead htok hrest => exec_gets_of_overflow hr ⟨hin, hlead, htok, hrest⟩

/-- Settles O36: `gets` leaves the registers, so `puts` starts at the token, which has no zero byte and whose
terminator is the first one. -/
theorem putsAfterGetsEchoesTheToken : Obligations.PutsAfterGetsEchoesTheToken := by
  intro s r lead tok rest hr hin hlead htok hnz hrest hfit
  obtain ⟨-, hgets, -⟩ := getsStoresTheToken
  obtain ⟨-, hputs, -⟩ := putsEmitsTheString
  obtain ⟨t, hexec, ht, hread, hzero, -⟩ := hgets s r lead tok rest hr hin hlead htok hrest hfit
  obtain ⟨mem, rfl⟩ : ∃ mem, t = { s with input := rest, mem := mem } := ⟨_, ht⟩
  refine ⟨_, _, hexec, hputs _ r tok.length hr hfit (fun k hk => ?nonzero) hzero, ?echo, rfl, rfl, rfl, rfl⟩
  case nonzero =>
    have hbyte := hread k tok[k] (List.getElem?_eq_getElem hk)
    exact hbyte.trans_ne (hnz _ (List.getElem_mem hk))
  case echo => exact congrArg (s.output ++ ·) (State.bytesFrom_eq_of_getElem? hread)

end Sys2Proof.Machine

/-!
Faults (60_exceptions.md). What fault entry writes (R130), the diagnostic's text (R131) and the exit code (R136) are read
off the kinds and statuses one by one; the bounds check comes before the access (R121). That a fault is precise (R132) is
said in three parts, by what took the fault: the check of `pc`, a string that overflows, and any other fault of dispatch
or of a handler.
-/

namespace Sys2Proof.Machine

open Sys2Proof

/-! ## Fault entry, diagnostic texts and exit codes -/

/-- Settles O39: the exit code is a table over the status. -/
theorem exitCodesOfTheStatus : Obligations.ExitCodesOfTheStatus :=
  ⟨rfl, fun _ => rfl, rfl⟩

/-- Settles O37: fault entry is that one update, and it leaves a status whose exit code is 1. -/
theorem faultEntryWritesStatusAndErrOnly : Obligations.FaultEntryWritesStatusAndErrOnly := by
  intro s k
  obtain ⟨-, hfaulted, -⟩ := exitCodesOfTheStatus
  exact ⟨rfl, hfaulted k⟩

/-- Settles O38: kind by kind, the two without a text being no bound violations. -/
theorem diagnosticTextsOfBoundViolations : Obligations.DiagnosticTextsOfBoundViolations := by
  refine ⟨fun k => ⟨fun htext => ?isBoundViolation, ?hasText⟩, fun _ => rfl, fun _ _ => rfl⟩
  case isBoundViolation =>
    cases k with
    | outOfBoundsMemoryAccess a n => exact .inl ⟨a, n, rfl⟩
    | outOfBoundsProgramCounter p => exact .inr (.inl ⟨p, rfl⟩)
    | invalidJumpTarget x => exact .inr (.inr (.inl ⟨x, rfl⟩))
    | stringOverflow a b => exact .inr (.inr (.inr ⟨a, b, rfl⟩))
    | invalidOpcode | invalidRegisterIndex => cases htext
  case hasText => rintro (⟨_, _, rfl⟩ | ⟨_, rfl⟩ | ⟨_, rfl⟩ | ⟨_, _, rfl⟩) <;> rfl

/-! ## Accesses out of bounds -/

/-- The register operands of an instruction of format RR are its first two (R53). -/
theorem registersValid_iff_of_format_RR {s : State} {i : Instr} (h : i.mnemonic.format = .RR) :
    RegistersValid s i ↔ (i.operandByte .b1).toNat < s.numRegs ∧ (i.operandByte .b2).toNat < s.numRegs := by
  simp [RegistersValid, Instr.registersInRange, Instr.registerFields, h, Format.operandUse]

/-- Settles O41: the failing side of each accessor's bounds check, and the handlers that stop at it. -/
theorem outOfBoundsAccessFaultsBeforeTheAccess : Obligations.OutOfBoundsAccessFaultsBeforeTheAccess := by
  refine ⟨fun _ _ h => State.readMemoryByte_of_le (Nat.le_of_lt_succ h), fun _ _ => State.readMemoryWord_of_overflow,
    fun _ _ v h => State.writeMemoryByte_of_le v (Nat.le_of_lt_succ h), fun s d a hregs => ?load,
    fun s a r hregs => ?store⟩
  case load =>
    obtain ⟨hd, ha⟩ := (registersValid_iff_of_format_RR rfl).mp hregs
    exact exec_load_of_le hd ha
  case store =>
    obtain ⟨ha, hr⟩ := (registersValid_iff_of_format_RR rfl).mp hregs
    exact exec_store_of_le ha hr

/-! ## Faults of a handler -/

/-- A handler whose fault is no overflow of a string raised it before any effect (R132). -/
theorem Effect.eq_raise_of_faulted {i : Instr} {s t : State} {k : FaultKind} (h : Effect i s t)
    (hs : s.status = .running) (ht : t.status = .faulted k) (hk : ∀ a b, k ≠ .stringOverflow a b) :
    t = s.raise k := by
  cases h with
  | trap => cases ht; rfl
  | putsOverflow => cases ht; exact absurd rfl (hk _ _)
  | getsOverflow => cases ht; exact absurd rfl (hk _ _)
  | halt => cases ht
  | _ => cases hs.symm.trans ht

/-- A handler that overflowed a string is `puts` after some output, or `gets` after its token was consumed (R125, D18). -/
theorem Effect.stringOverflow_cases {i : Instr} {s t : State} {a b : Nat} (h : Effect i s t)
    (hs : s.status = .running) (ht : t.status = .faulted (.stringOverflow a b)) :
    (∃ r out, i = .puts r ∧ t = (s.emit out).raise (.stringOverflow a b)) ∨
    (∃ r, i = .gets r ∧ t = State.raise { s with input := s.inputAfterToken } (.stringOverflow a b)) := by
  cases h with
  | trap k _ hk => exact absurd (Status.faulted.inj ht) (hk a b)
  | putsOverflow r out _ _ hi => cases ht; exact .inl ⟨r, out, hi, rfl⟩
  | getsOverflow r _ _ hi => cases ht; exact .inr ⟨r, hi, rfl⟩
  | halt => cases ht
  | _ => cases hs.symm.trans ht

/-! ## Faults of a step -/

/-- The closing check takes no fault but its own (R74). -/
theorem State.checkPc_eq_of_faulted {s : State} {k : FaultKind} (h : s.checkPc.status = .faulted k)
    (hk : ∀ p, k ≠ .outOfBoundsProgramCounter p) : s.checkPc = s := by
  rcases s.checkPc_cases with ⟨-, -, e⟩ | ⟨-, e⟩
  · rw [e] at h
    exact absurd (Status.faulted.inj h).symm (hk _)
  · exact e

/-- A step that faults by something else than its check of `pc` faults at an unset opcode slot or in its handler. -/
theorem step_faulted_cases {s t : State} {k : FaultKind} (h : step s = .next t) (ht : t.status = .faulted k)
    (hk : ∀ p, k ≠ .outOfBoundsProgramCounter p) :
    (∃ op, k = .invalidOpcode op ∧ t = s.advancePc.raise k) ∨
    (∃ i, decode s.cfg.opc s.fetchWord = .ok i ∧ Effect i s.advancePc t) := by
  obtain ⟨-, -, ⟨-, rfl⟩ | ⟨-, -, rfl⟩ | ⟨-, i, u, hd, hu, rfl⟩⟩ := step_cases h
  · exact absurd (Status.faulted.inj ht).symm (hk _)
  · cases ht
    exact .inl ⟨_, rfl, rfl⟩
  · rw [State.checkPc_eq_of_faulted ht hk]
    exact .inr ⟨i, hd, exec_effect hu⟩

/-- The diagnostic of a faulting step (R130, R134). -/
theorem step_faulted_err {s t : State} {k : FaultKind} (h : step s = .next t) (ht : t.status = .faulted k) :
    t.err = s.err ++ [⟨k⟩] := by
  rcases atMostOneFaultPerStep s t h with ⟨hnot, -⟩ | ⟨k', hk', herr⟩
  · rw [ht] at hnot
    cases hnot
  · cases ht.symm.trans hk'
    exact herr

/-- A fault of dispatch or of a handler, but for an overflow of a string, leaves the advanced state (R132). -/
theorem step_faulted_eq_raise {s t : State} {k : FaultKind} (h : step s = .next t) (ht : t.status = .faulted k)
    (hpc : ∀ p, k ≠ .outOfBoundsProgramCounter p) (hstr : ∀ a b, k ≠ .stringOverflow a b) :
    t = s.advancePc.raise k := by
  obtain ⟨hr, -⟩ := step_cases h
  rcases step_faulted_cases h ht hpc with ⟨-, -, heq⟩ | ⟨i, -, heff⟩
  · exact heq
  · exact heff.eq_raise_of_faulted hr ht hstr

/-- An overflow of a string is that of the fetched `puts` or `gets`, with what it did before (R125, R132). -/
theorem step_stringOverflow_cases {s t : State} {a b : Nat} (h : step s = .next t)
    (ht : t.status = .faulted (.stringOverflow a b)) :
    (∃ r out, decode s.cfg.opc s.fetchWord = .ok (.puts r) ∧
      t = (s.advancePc.emit out).raise (.stringOverflow a b)) ∨
    (∃ r, decode s.cfg.opc s.fetchWord = .ok (.gets r) ∧
      t = State.raise { s.advancePc with input := s.inputAfterToken } (.stringOverflow a b)) := by
  obtain ⟨hr, -⟩ := step_cases h
  rcases step_faulted_cases h ht nofun with ⟨op, hop, -⟩ | ⟨i, hd, heff⟩
  · cases hop
  · rcases heff.stringOverflow_cases hr ht with ⟨r, out, rfl, heq⟩ | ⟨r, rfl, heq⟩
    · exact .inl ⟨r, out, hd, heq⟩
    · exact .inr ⟨r, hd, heq⟩

/-- The `pc` reported is the one left, outside the code buffer, and CODE_WORDS where the step began at CODE_WORDS or below
it (R74, R77, R122). -/
theorem step_outOfBoundsProgramCounter {s t : State} {p : Nat} (h : step s = .next t)
    (ht : t.status = .faulted (.outOfBoundsProgramCounter p)) :
    t.pc = p ∧ s.codeWords ≤ p ∧ (s.pc ≤ s.codeWords → p = s.codeWords) := by
  obtain ⟨hr, -, ⟨hle, rfl⟩ | ⟨-, -, rfl⟩ | ⟨hlt, i, u, -, hu, rfl⟩⟩ := step_cases h
  · cases ht
    exact ⟨rfl, hle, fun hge => Nat.le_antisymm hge hle⟩
  · cases ht
  · obtain ⟨hp, -⟩ := onlyFallingOffTheEndLeavesTheCode s _ p hlt h ht
    obtain ⟨-, -, hpc, hraise⟩ :=
      State.checkPc_eq_raise ht ((exec_effect hu).status_ne_outOfBoundsProgramCounter hr p)
    rw [hraise]
    exact ⟨hpc, hp.ge, fun _ => hp⟩

/-- Settles O42: one part for each thing that can take a fault. -/
theorem faultsArePrecise : Obligations.FaultsArePrecise := by
  intro s t k h ht
  refine ⟨step_faulted_err h ht, step_faulted_eq_raise h ht, fun a b hk => ?overflow, fun p hk => ?pcCheck⟩
  case overflow =>
    subst hk
    exact step_stringOverflow_cases h ht
  case pcCheck =>
    subst hk
    exact step_outOfBoundsProgramCounter h ht

end Sys2Proof.Machine

/-!
Reset and progress (70_reset_and_hazards.md). The state after reset is read off `State.resetWith`, register by register and
byte by byte (R150). No handler ends in a stop of the model: every primitive answers a next state, a fault taken included,
so a Running core always steps (R161, D26) unless its code buffer is not whole words (D22).
-/

namespace Sys2Proof.Machine

open Sys2Proof

/-! ## The state after reset -/

@[simp] theorem State.resetWith_numRegs (p : Params) : (State.resetWith p).numRegs = p.numRegs :=
  List.length_replicate

/-- Every register is 0 after reset (R24, D10). -/
theorem State.resetWith_readReg {p : Params} {r : Byte} (hr : r.toNat < p.numRegs) :
    (State.resetWith p).readReg r = 0 := by
  simp [State.readReg, State.resetWith, hr]

/-- Memory is MEM_INIT after reset (R28, D11). -/
theorem State.resetWith_readByte {p : Params} {a : Nat} {b : Byte} (h : p.memInit[a]? = some b) :
    (State.resetWith p).readByte a = b := by
  have hread := Memory.read_writeRun_inside [] 0 h
  rwa [Nat.zero_add] at hread

/-- Settles O49: registers and memory by their lemmas, the other fields are what `State.resetWith` sets them to. -/
theorem resetLeavesTheStatedValues : Obligations.ResetLeavesTheStatedValues :=
  fun p _ => ⟨State.resetWith_numRegs p, fun _ => State.resetWith_readReg, rfl, rfl, fun _ _ => State.resetWith_readByte,
    rfl, rfl, rfl, rfl⟩

/-! ## Every handler answers a next state -/

section answers
variable (s : State)

/-- An accessor that fails is a fault taken, so a next state too. -/
theorem State.exists_next_orRaise (r : Except FaultKind State) : ∃ t, s.orRaise r = .next t := by
  cases r with
  | ok t => exact ⟨t, rfl⟩
  | error k => exact ⟨s.raise k, rfl⟩

theorem State.exists_next_jumpTo (target : Nat) : ∃ t, s.jumpTo target = .next t := by
  rcases Nat.lt_or_ge target s.codeWords with hlt | hle
  · exact ⟨_, State.jumpTo_of_lt hlt⟩
  · exact ⟨_, State.jumpTo_of_le hle⟩

theorem State.exists_next_putString (a : Nat) : ∃ t, s.putString a = .next t := by
  rw [State.putString_of_scan rfl]
  split
  · exact ⟨_, rfl⟩
  · exact ⟨_, rfl⟩

theorem State.exists_next_getToken (a : Nat) : ∃ t, s.getToken a = .next t := by
  rcases Nat.lt_or_ge s.cfg.memSize (a + s.token.length + 1) with hlt | hle
  · exact ⟨_, State.getToken_of_overflow hlt⟩
  · exact ⟨_, State.getToken_of_fits hle⟩

/-- The register check adds no stop: it faults, or the handler decides (R58). -/
theorem State.exists_next_withRegisters (fields : List (OperandField × Byte)) {handler : Exec}
    (h : ∃ t, handler = .next t) : ∃ t, s.withRegisters fields handler = .next t := by
  rw [State.withRegisters]
  split
  · exact ⟨_, rfl⟩
  · exact h

theorem exists_next_exec (i : Instr) : ∃ t, exec i s = .next t := by
  cases i with
  | halt => exact ⟨_, exec_halt s⟩
  | load | store => exact s.exists_next_withRegisters _ (s.exists_next_orRaise _)
  | jump x => exact s.exists_next_jumpTo x.toNat
  | ite => exact s.exists_next_withRegisters _ (s.exists_next_jumpTo _)
  | puts => exact s.exists_next_withRegisters _ (s.exists_next_putString _)
  | gets => exact s.exists_next_withRegisters _ (s.exists_next_getToken _)
  | move | puti | add | sub | gt | ge | eq => exact s.exists_next_withRegisters _ ⟨_, rfl⟩

end answers

/-! ## When a step exists and when it is refused -/

/-- A Running core of whole words faults on its `pc`, faults on an unset opcode slot, or runs an instruction. -/
theorem exists_next_step {s : State} (hr : s.status = .running) (hlen : s.cfg.codeLen % 4 = 0) :
    ∃ t, step s = .next t := by
  rcases Nat.lt_or_ge s.pc s.codeWords with hlt | hle
  · have hf : s.CanFetch := ⟨hr, hlen, hlt⟩
    cases hd : decode s.cfg.opc s.fetchWord with
    | error e => exact ⟨_, step_of_decode_error hf hd⟩
    | ok i =>
      obtain ⟨u, hu⟩ := exists_next_exec s.advancePc i
      exact ⟨u.checkPc, by rw [step_of_decode hf hd, hu, closeStep]⟩
  · exact ⟨_, fetchOutsideTheCodeFaults s hr hlen hle⟩

/-- Settles O11: the step from the three cases of the fetch, the handlers from what their primitives answer. -/
theorem aStepExistsWhileRunning : Obligations.AStepExistsWhileRunning :=
  ⟨fun _ => exists_next_step, fun i s => exists_next_exec s i⟩

/-- A code buffer that is not whole words is refused before anything is fetched (D22, log 9). -/
theorem step_of_codeLen_not_whole {s : State} (hr : s.status = .running) (hlen : s.cfg.codeLen % 4 ≠ 0) :
    step s = .refused .codeLengthNotWholeWords := by
  simp [step, hr, hlen]

/-- Settles O12: the terminal statuses have a stop of their own, and a Running core of whole words steps. -/
theorem onlyBrokenCodeLengthIsRefused : Obligations.OnlyBrokenCodeLengthIsRefused := by
  refine fun s => ⟨fun ⟨r, hrefused⟩ => ?brokenLength, fun ⟨hr, hlen⟩ => ⟨_, step_of_codeLen_not_whole hr hlen⟩⟩
  cases hr : s.status with
  | halted => cases (step_of_halted hr).symm.trans hrefused
  | faulted k => cases (step_of_faulted hr).symm.trans hrefused
  | running =>
    refine ⟨rfl, fun hlen => ?_⟩
    obtain ⟨t, hnext⟩ := exists_next_step hr hlen
    cases hnext.symm.trans hrefused

end Sys2Proof.Machine
